-- ==== Sys2Proof/Word.lean ====
section
/-! DEFINITION. The fixed widths of the hardware (spec/00_scope.md R10, R14): the word, the byte, and the index types of the
register file and of the CSR file. Nothing here computes; arithmetic is `BitVec`'s, which is modulo 2^32 as R14 has it. -/

namespace Sys2Proof

/-- A u32: every register, PC and CSR value (R14). -/
abbrev Word := BitVec 32

/-- A byte of memory (R202). -/
abbrev Byte := BitVec 8

/-- The index of a general register, 0 to 31 (R100). -/
abbrev Reg := Fin 32

/-- A 12-bit CSR address, 0 to 4095 (R120). -/
abbrev CsrAddr := BitVec 12

end Sys2Proof
end

