-- ==== Sys2Proof/Config.lean ====
section
/-! DEFINITION. The four parameters the spec leaves open (spec/00_scope.md R11): MEM_CAPACITY, START_PC, INIT_MEM and
TRACE_ENABLED, as one record a model is launched with. The machine takes them as data (`State.launch`), so that a statement
over all states holds for every value of them. `Launch.default` is only what `State.reset` is launched with: DESIGN CHOICE,
log entries 3 to 6. -/

namespace Sys2Proof

/-- What the host fixes when it constructs and starts the machine (R11, R810). -/
structure Launch where
  /-- MEM_CAPACITY: the memory's byte count, fixed at construction (R201, decision D1). -/
  memCapacity : Nat
  /-- START_PC: the argument of `reset(startPc)` (R803, decision D2). -/
  startPc : Word
  /-- INIT_MEM: the bytes of memory when the core starts, those that are 0 left out (R202, decision D3). -/
  initMem : List Host.Cell
  /-- TRACE_ENABLED: the trace flag (R140, decision D4). -/
  traceEnabled : Bool
  deriving DecidableEq, Repr

/-- The bound the spec puts on MEM_CAPACITY: no 32-bit address reaches beyond 2^32 (R11, R201). -/
def maxCapacity : Nat := 2 ^ 32

/-- The launch `State.reset` stands for. DESIGN CHOICE (log entries 3 to 6): the spec fixes none of the four values.
Unsafe where a claim is made about runs from `State.reset` alone; no statement of this package rests on these values. -/
def Launch.default : Launch where
  memCapacity := maxCapacity
  startPc := 0
  initMem := []
  traceEnabled := false

end Sys2Proof
end

