-- ==== Sys2Proof/Syntax.lean ====
section
/-! DEFINITION. The 47 instructions of spec/00_scope.md R2, one constructor per row of spec/opcode_table.json, in the
table's order. Operands are the decoded fields of spec/30_encoding.md R310 to R318 at the width the encoding gives them;
sign extension is the meaning's (Machine/Operands.lean). A branch or JAL offset keeps its bit 0, which no encoding holds
(R313, R315): that it is 0 is a check of WellFormed.lean. FENCE and FENCE.I keep the bits the core ignores (R329, R440), so
that every legal word is the encoding of exactly one instruction. -/

namespace Sys2Proof

inductive Instr where
  -- System (spec/40_system.md)
  | ecall
  | ebreak
  -- CSR (spec/41_csr.md)
  | csrrw (rd : Reg) (csr : CsrAddr) (rs1 : Reg)
  | csrrs (rd : Reg) (csr : CsrAddr) (rs1 : Reg)
  | csrrc (rd : Reg) (csr : CsrAddr) (rs1 : Reg)
  | csrrwi (rd : Reg) (csr : CsrAddr) (zimm : BitVec 5)
  | csrrsi (rd : Reg) (csr : CsrAddr) (zimm : BitVec 5)
  | csrrci (rd : Reg) (csr : CsrAddr) (zimm : BitVec 5)
  -- Fence (spec/42_fence.md); `hi` is inst[31:20], whose parts fm, pred and succ are all ignored
  | fence (hi : BitVec 12) (rs1 : Reg) (funct3 : BitVec 3) (rd : Reg)
  | fenceI (hi : BitVec 12) (rs1 rd : Reg)
  -- Register-immediate ALU (spec/43_alu_imm.md)
  | addi (rd rs1 : Reg) (imm : BitVec 12)
  | slti (rd rs1 : Reg) (imm : BitVec 12)
  | sltiu (rd rs1 : Reg) (imm : BitVec 12)
  | xori (rd rs1 : Reg) (imm : BitVec 12)
  | ori (rd rs1 : Reg) (imm : BitVec 12)
  | andi (rd rs1 : Reg) (imm : BitVec 12)
  | slli (rd rs1 : Reg) (shamt : BitVec 5)
  | srli (rd rs1 : Reg) (shamt : BitVec 5)
  | srai (rd rs1 : Reg) (shamt : BitVec 5)
  -- Loads (spec/44_loads.md): rd, imm(rs1)
  | lb (rd : Reg) (imm : BitVec 12) (rs1 : Reg)
  | lh (rd : Reg) (imm : BitVec 12) (rs1 : Reg)
  | lw (rd : Reg) (imm : BitVec 12) (rs1 : Reg)
  | lbu (rd : Reg) (imm : BitVec 12) (rs1 : Reg)
  | lhu (rd : Reg) (imm : BitVec 12) (rs1 : Reg)
  -- Stores (spec/45_stores.md): rs2, imm(rs1)
  | sb (rs2 : Reg) (imm : BitVec 12) (rs1 : Reg)
  | sh (rs2 : Reg) (imm : BitVec 12) (rs1 : Reg)
  | sw (rs2 : Reg) (imm : BitVec 12) (rs1 : Reg)
  -- Jumps (spec/46_jumps.md)
  | jal (rd : Reg) (offset : BitVec 21)
  | jalr (rd : Reg) (imm : BitVec 12) (rs1 : Reg)
  -- Upper immediate (spec/47_upper_imm.md): imm20 is inst[31:12]
  | lui (rd : Reg) (imm20 : BitVec 20)
  | auipc (rd : Reg) (imm20 : BitVec 20)
  -- Branches (spec/48_branches.md)
  | beq (rs1 rs2 : Reg) (offset : BitVec 13)
  | bne (rs1 rs2 : Reg) (offset : BitVec 13)
  | blt (rs1 rs2 : Reg) (offset : BitVec 13)
  | bge (rs1 rs2 : Reg) (offset : BitVec 13)
  | bltu (rs1 rs2 : Reg) (offset : BitVec 13)
  | bgeu (rs1 rs2 : Reg) (offset : BitVec 13)
  -- Register-register ALU (spec/49_alu_reg.md)
  | add (rd rs1 rs2 : Reg)
  | sub (rd rs1 rs2 : Reg)
  | sll (rd rs1 rs2 : Reg)
  | slt (rd rs1 rs2 : Reg)
  | sltu (rd rs1 rs2 : Reg)
  | xor (rd rs1 rs2 : Reg)
  | srl (rd rs1 rs2 : Reg)
  | sra (rd rs1 rs2 : Reg)
  | or (rd rs1 rs2 : Reg)
  | and (rd rs1 rs2 : Reg)
  deriving DecidableEq, Repr

end Sys2Proof
end

