-- ==== Sys2Proof/Machine/State.lean ====
section
/-! DEFINITION. Every piece of state the spec gives the machine (spec/10_state.md, the record CoreState, and the memory
component's state of spec/20_memory.md R201, R202), the trace record (spec/60_exceptions.md R780), the reasons a step can
stop, and the state after reset (spec/70_reset_and_hazards.md R800, R801). -/

namespace Sys2Proof.Machine

/-- The five halt reasons and what each records (spec/60_exceptions.md R700). The memory port fails with the first two
(R215). -/
inductive HaltReason where
  /-- address + size exceeds the memory's capacity -/
  | outOfRange (addr : Word) (size capacity : Nat)
  /-- the address violates the access's alignment -/
  | misaligned (addr : Word) (size : Nat)
  /-- decode matched nothing -/
  | illegalInstruction (pc word : Word)
  /-- EBREAK reached -/
  | breakpoint
  /-- ECALL reached -/
  | environmentCall
  deriving DecidableEq, Repr

/-- The run state (spec/10_state.md R130, R134). -/
inductive RunState where
  /-- constructed but not yet reset (R134) -/
  | unstarted
  | running
  | halted (reason : HaltReason)
  deriving DecidableEq, Repr

/-- The mnemonics a trace record can carry: one per instruction and `illegal` (R780, R783). -/
inductive Mnemonic where
  | ecall | ebreak
  | csrrw | csrrs | csrrc | csrrwi | csrrsi | csrrci
  | fence | fenceI
  | addi | slti | sltiu | xori | ori | andi | slli | srli | srai
  | lb | lh | lw | lbu | lhu
  | sb | sh | sw
  | jal | jalr
  | lui | auipc
  | beq | bne | blt | bge | bltu | bgeu
  | add | sub | sll | slt | sltu | xor | srl | sra | or | and
  | illegal
  deriving DecidableEq, Repr

/-- One operand of a trace record: `Reg i`, `Imm n` or `Csr a` (R780). -/
inductive TraceOperand where
  | reg (r : Reg)
  | imm (n : Int)
  | csr (a : CsrAddr)
  deriving DecidableEq, Repr

/-- The trace record as data (R780). -/
structure TraceRecord where
  pc : Word
  word : Word
  mnemonic : Mnemonic
  operands : List TraceOperand
  /-- the register written and its value after writeback -/
  wb : Option (Reg × Word)
  deriving DecidableEq, Repr

/-- Memory: the bytes that are not 0, by address, in the canonical form `Memory.wf` (Machine/Ops.lean; log entry 5). -/
abbrev Memory := List Host.Cell

/-- The CSR file: the CSRs that are not 0, by address, in the same canonical form (spec/10_state.md R120, R124: 4096 words,
all 0 after reset). -/
abbrev CsrFile := List (Nat × Word)

structure State where
  /-- x0 to x31 (R100); x0 reads 0 whatever its cell holds (R101, `State.readReg`) -/
  x : Vector Word 32
  /-- the address of the next instruction to fetch (R110) -/
  pc : Word
  /-- the CSR file (R120) -/
  csr : CsrFile
  /-- the run state (R130, R134) -/
  run : RunState
  /-- the trace flag (R140) -/
  trace : Bool
  /-- MEM_CAPACITY, fixed when the memory is constructed (R201); no step and no host operation changes it -/
  capacity : Nat
  /-- the memory component's bytes (R202) -/
  mem : Memory
  /-- the trace records the steps have emitted, oldest first (R152, R780): the core's output, kept where a claim can read it
  (the model's own field, log entry 7) -/
  traceOut : List TraceRecord
  deriving DecidableEq, Repr

/-- Why the machine is stuck. -/
inductive Fault where
  /-- `step` in `Unstarted`, where the core has no step (R134; spec/93_implementation_defined.md U2 `stuck`). Raised by
  `step`, never by an instruction. Safe: nothing is claimed of the core before its first reset. -/
  | stuckUnstarted
  deriving DecidableEq, Repr

/-- Why a step is outside the model. -/
inductive Refusal where
  /-- an instruction of the opcode table that has no meaning yet; raised by `exec` only. Safe. -/
  | notModelled (mnemonic : String)
  /-- `step` called on a halted core: illegal for the host (R132, decision D10; U1 `refuse`). Raised by `step`, never by an
  instruction. Safe: the spec gives such a call no effect. -/
  | stepWhileHalted (reason : HaltReason)
  deriving DecidableEq, Repr

/-- The machine after the host has constructed it and called `reset(START_PC)` (R800, R801, R810): registers and CSRs 0, pc
the start PC, Running; memory, capacity and trace flag as launched. -/
def State.launch (p : Launch) : State where
  x := Vector.replicate 32 0
  pc := p.startPc
  csr := []
  run := .running
  trace := p.traceEnabled
  capacity := p.memCapacity
  mem := p.initMem
  traceOut := []

/-- The state right after reset. The four launch parameters are a DESIGN CHOICE (log entries 3 to 6); every other value is
R801's. -/
def State.reset : State := State.launch Launch.default

end Sys2Proof.Machine
end

