-- ==== Sys2Proof/Machine/Operands.lean ====
section
/-! DEFINITION. Every operand form of spec/30_encoding.md R311 to R320: the immediates as the 32-bit values the instructions
use. Register operands are `State.readReg` (Machine/Ops.lean); there is no other addressing mode than base plus offset and
PC-relative (R320). -/

namespace Sys2Proof.Machine

/-- `sext_32` (spec/00_scope.md R15). -/
def sext32 {w : Nat} (v : BitVec w) : Word := v.signExtend 32

/-- `zext_32` (R15). -/
def zext32 {w : Nat} (v : BitVec w) : Word := v.setWidth 32

/-- `imm_i` (R311). -/
def immI (imm : BitVec 12) : Word := sext32 imm

/-- `imm_s` (R312). -/
def immS (imm : BitVec 12) : Word := sext32 imm

/-- `imm_b` (R313); the 13-bit offset already holds bit 0. -/
def immB (offset : BitVec 13) : Word := sext32 offset

/-- `imm_u = {inst[31:12], 0x000}` (R314). -/
def immU (imm20 : BitVec 20) : Word := imm20 ++ 0#12

/-- `imm_j` (R315); the 21-bit offset already holds bit 0. -/
def immJ (offset : BitVec 21) : Word := sext32 offset

/-- The 5-bit zero-extended CSR immediate (R318). -/
def zimm32 (zimm : BitVec 5) : Word := zext32 zimm

/-- The shift amount of SLL, SRL and SRA: the low 5 bits of x[rs2] (spec/49_alu_reg.md R602, R606, R607; decision D13,
log entry 9). -/
def regShamt (v : Word) : BitVec 5 := v.extractLsb' 0 5

end Sys2Proof.Machine
end

