-- ==== Sys2Proof/Machine/Flags.lean ====
section
/-! DEFINITION. The core has no flags, no condition codes and no carry (spec/10_state.md R125). What stands here is what the
spec has in their place: the two orders on u32, their delivery as 0 or 1 into a register, and the three shifts, none of
which leaves a flag (spec/00_scope.md R14). -/

namespace Sys2Proof.Machine

/-- `a <s b`: the two's-complement readings compared (R14). -/
def ltSigned (a b : Word) : Bool := a.slt b

/-- `a <u b` (R14). -/
def ltUnsigned (a b : Word) : Bool := a.ult b

/-- `bool(c)`: 1 when c holds and 0 otherwise, as a u32 (R14). -/
def boolWord (c : Bool) : Word := if c then 1 else 0

/-- `v << n` (R14). -/
def shiftLeft (v : Word) (n : BitVec 5) : Word := v <<< n.toNat

/-- `v >>u n` (R14). -/
def shiftRightLogical (v : Word) (n : BitVec 5) : Word := v >>> n.toNat

/-- `v >>s n` (R14). -/
def shiftRightArith (v : Word) (n : BitVec 5) : Word := v.sshiftRight n.toNat

end Sys2Proof.Machine
end

