-- ==== Sys2Proof/WellFormed.lean ====
section
/-! DEFINITION. Which terms of `Instr` are instructions of the hardware. The operand types already bound every field; what
is left are three checks: a branch offset is even (spec/30_encoding.md R313), a JAL offset is even (R315), and a FENCE does
not carry the funct3 that is FENCE.I's (R328, spec/42_fence.md R440). -/

namespace Sys2Proof

/-- imm_b[0] is not encoded and is 0 (R305, R313). -/
def branchOffsetOk (offset : BitVec 13) : Bool := !offset[0]

/-- imm_j[0] is not encoded and is 0 (R307, R315). -/
def jumpOffsetOk (offset : BitVec 21) : Bool := !offset[0]

/-- funct3 = 1 under opcode 0x0F is FENCE.I; every other value is FENCE (R328, R440). -/
def fenceFunct3Ok (funct3 : BitVec 3) : Bool := funct3 != 1#3

/-- `i.wf`: some word of the hardware encodes `i`. -/
def Instr.wf : Instr → Bool
  | .fence _ _ funct3 _ => fenceFunct3Ok funct3
  | .jal _ offset => jumpOffsetOk offset
  | .beq _ _ offset | .bne _ _ offset | .blt _ _ offset => branchOffsetOk offset
  | .bge _ _ offset | .bltu _ _ offset | .bgeu _ _ offset => branchOffsetOk offset
  | .ecall | .ebreak | .fenceI .. => true
  | .csrrw .. | .csrrs .. | .csrrc .. | .csrrwi .. | .csrrsi .. | .csrrci .. => true
  | .addi .. | .slti .. | .sltiu .. | .xori .. | .ori .. | .andi .. | .slli .. | .srli .. | .srai .. => true
  | .lb .. | .lh .. | .lw .. | .lbu .. | .lhu .. | .sb .. | .sh .. | .sw .. => true
  | .jalr .. | .lui .. | .auipc .. => true
  | .add .. | .sub .. | .sll .. | .slt .. | .sltu .. | .xor .. | .srl .. | .sra .. | .or .. | .and .. => true

end Sys2Proof
end

