-- ==== Sys2Proof/Decode.lean ====
section
/-! DEFINITION. spec/30_encoding.md: the fields of an instruction word (R310 to R318), the decoder (R325 to R331), total on
every word and on every byte sequence, and the encoder, written from the format tables R301 to R307. -/

namespace Sys2Proof

/-! ### Fields of the instruction word (R310 to R318) -/

namespace InstWord

/-- `inst[6:0]` (R310). -/
def opcode (w : Word) : BitVec 7 := w.extractLsb' 0 7
/-- `inst[11:7]` (R310). -/
def rd (w : Word) : Reg := (w.extractLsb' 7 5).toFin
/-- `inst[14:12]` (R310). -/
def funct3 (w : Word) : BitVec 3 := w.extractLsb' 12 3
/-- `inst[19:15]` (R310). -/
def rs1 (w : Word) : Reg := (w.extractLsb' 15 5).toFin
/-- `inst[24:20]` (R310). -/
def rs2 (w : Word) : Reg := (w.extractLsb' 20 5).toFin
/-- `inst[31:25]` (R310). -/
def funct7 (w : Word) : BitVec 7 := w.extractLsb' 25 7
/-- `inst[31:20]`, before sign extension (R302, R311). -/
def immI (w : Word) : BitVec 12 := w.extractLsb' 20 12
/-- The inst[31:25] and inst[11:7] halves of the S immediate, before sign extension (R304, R312). -/
def immS (w : Word) : BitVec 12 := w.extractLsb' 25 7 ++ w.extractLsb' 7 5
/-- The scattered B immediate with its bit 0, before sign extension (R305, R313). -/
def immB (w : Word) : BitVec 13 :=
  w.extractLsb' 31 1 ++ w.extractLsb' 7 1 ++ w.extractLsb' 25 6 ++ w.extractLsb' 8 4 ++ 0#1
/-- `inst[31:12]` (R306, R314). -/
def imm20 (w : Word) : BitVec 20 := w.extractLsb' 12 20
/-- The scattered J immediate with its bit 0, before sign extension (R307, R315). -/
def immJ (w : Word) : BitVec 21 :=
  w.extractLsb' 31 1 ++ w.extractLsb' 12 8 ++ w.extractLsb' 20 1 ++ w.extractLsb' 21 10 ++ 0#1
/-- `inst[24:20]` as a shift amount (R316). -/
def shamt (w : Word) : BitVec 5 := w.extractLsb' 20 5
/-- `inst[31:20]` as a CSR address (R317). -/
def csrAddr (w : Word) : CsrAddr := w.extractLsb' 20 12
/-- `inst[19:15]` as a 5-bit immediate (R318). -/
def zimm (w : Word) : BitVec 5 := w.extractLsb' 15 5

end InstWord

/-! ### The decoder (R325 to R331) -/

/-- Why a byte sequence is no instruction. The spec has the one outcome Illegal (R330); the names say which of the tests of
R328 the word failed (log entry 15) and reach no state of the machine. -/
inductive DecodeError where
  /-- fewer than four bytes are left (R300: every instruction is one 32-bit word) -/
  | truncated
  /-- `inst[6:0]` is no opcode of R327 -/
  | unknownOpcode (opcode : BitVec 7)
  /-- the group has no instruction with this funct3 (R328) -/
  | unknownFunct3 (opcode : BitVec 7) (funct3 : BitVec 3)
  /-- funct7 selects no instruction of the group (R328, R469) -/
  | unknownFunct7 (opcode : BitVec 7) (funct3 : BitVec 3) (funct7 : BitVec 7)
  /-- opcode 0x73 and funct3 0, but neither the ECALL nor the EBREAK word (R326) -/
  | unknownSystemWord (word : Word)
  deriving DecidableEq, Repr

/-- The whole words of ECALL and EBREAK (R326). -/
def ecallWord : Word := 0x00000073#32
def ebreakWord : Word := 0x00100073#32

/-- Opcode 0x73 once the two whole words are ruled out (R326, R328). -/
def decodeSystem (w : Word) : Except DecodeError Instr :=
  match InstWord.funct3 w with
  | 1#3 => .ok (.csrrw (InstWord.rd w) (InstWord.csrAddr w) (InstWord.rs1 w))
  | 2#3 => .ok (.csrrs (InstWord.rd w) (InstWord.csrAddr w) (InstWord.rs1 w))
  | 3#3 => .ok (.csrrc (InstWord.rd w) (InstWord.csrAddr w) (InstWord.rs1 w))
  | 5#3 => .ok (.csrrwi (InstWord.rd w) (InstWord.csrAddr w) (InstWord.zimm w))
  | 6#3 => .ok (.csrrsi (InstWord.rd w) (InstWord.csrAddr w) (InstWord.zimm w))
  | 7#3 => .ok (.csrrci (InstWord.rd w) (InstWord.csrAddr w) (InstWord.zimm w))
  | 0#3 => .error (.unknownSystemWord w)
  | f3 => .error (.unknownFunct3 0x73#7 f3)

/-- Opcode 0x0F: every word is FENCE.I or FENCE (R328, R329). -/
def decodeFence (w : Word) : Instr :=
  if InstWord.funct3 w = 1#3 then .fenceI (InstWord.immI w) (InstWord.rs1 w) (InstWord.rd w)
  else .fence (InstWord.immI w) (InstWord.rs1 w) (InstWord.funct3 w) (InstWord.rd w)

/-- Opcode 0x13 (R328, R469). All eight values of funct3 are named; the last line is for Lean alone. -/
def decodeAluImm (w : Word) : Except DecodeError Instr :=
  match InstWord.funct3 w with
  | 0#3 => .ok (.addi (InstWord.rd w) (InstWord.rs1 w) (InstWord.immI w))
  | 2#3 => .ok (.slti (InstWord.rd w) (InstWord.rs1 w) (InstWord.immI w))
  | 3#3 => .ok (.sltiu (InstWord.rd w) (InstWord.rs1 w) (InstWord.immI w))
  | 4#3 => .ok (.xori (InstWord.rd w) (InstWord.rs1 w) (InstWord.immI w))
  | 6#3 => .ok (.ori (InstWord.rd w) (InstWord.rs1 w) (InstWord.immI w))
  | 7#3 => .ok (.andi (InstWord.rd w) (InstWord.rs1 w) (InstWord.immI w))
  | 1#3 =>
    match InstWord.funct7 w with
    | 0x00#7 => .ok (.slli (InstWord.rd w) (InstWord.rs1 w) (InstWord.shamt w))
    | f7 => .error (.unknownFunct7 0x13#7 1#3 f7)
  | 5#3 =>
    match InstWord.funct7 w with
    | 0x00#7 => .ok (.srli (InstWord.rd w) (InstWord.rs1 w) (InstWord.shamt w))
    | 0x20#7 => .ok (.srai (InstWord.rd w) (InstWord.rs1 w) (InstWord.shamt w))
    | f7 => .error (.unknownFunct7 0x13#7 5#3 f7)
  | f3 => .error (.unknownFunct3 0x13#7 f3)

/-- Opcode 0x03 (R328, R505). -/
def decodeLoad (w : Word) : Except DecodeError Instr :=
  match InstWord.funct3 w with
  | 0#3 => .ok (.lb (InstWord.rd w) (InstWord.immI w) (InstWord.rs1 w))
  | 1#3 => .ok (.lh (InstWord.rd w) (InstWord.immI w) (InstWord.rs1 w))
  | 2#3 => .ok (.lw (InstWord.rd w) (InstWord.immI w) (InstWord.rs1 w))
  | 4#3 => .ok (.lbu (InstWord.rd w) (InstWord.immI w) (InstWord.rs1 w))
  | 5#3 => .ok (.lhu (InstWord.rd w) (InstWord.immI w) (InstWord.rs1 w))
  | f3 => .error (.unknownFunct3 0x03#7 f3)

/-- Opcode 0x23 (R328, R525). -/
def decodeStore (w : Word) : Except DecodeError Instr :=
  match InstWord.funct3 w with
  | 0#3 => .ok (.sb (InstWord.rs2 w) (InstWord.immS w) (InstWord.rs1 w))
  | 1#3 => .ok (.sh (InstWord.rs2 w) (InstWord.immS w) (InstWord.rs1 w))
  | 2#3 => .ok (.sw (InstWord.rs2 w) (InstWord.immS w) (InstWord.rs1 w))
  | f3 => .error (.unknownFunct3 0x23#7 f3)

/-- Opcode 0x67 (R328, R541). -/
def decodeJalr (w : Word) : Except DecodeError Instr :=
  match InstWord.funct3 w with
  | 0#3 => .ok (.jalr (InstWord.rd w) (InstWord.immI w) (InstWord.rs1 w))
  | f3 => .error (.unknownFunct3 0x67#7 f3)

/-- Opcode 0x63 (R328, R587). -/
def decodeBranch (w : Word) : Except DecodeError Instr :=
  match InstWord.funct3 w with
  | 0#3 => .ok (.beq (InstWord.rs1 w) (InstWord.rs2 w) (InstWord.immB w))
  | 1#3 => .ok (.bne (InstWord.rs1 w) (InstWord.rs2 w) (InstWord.immB w))
  | 4#3 => .ok (.blt (InstWord.rs1 w) (InstWord.rs2 w) (InstWord.immB w))
  | 5#3 => .ok (.bge (InstWord.rs1 w) (InstWord.rs2 w) (InstWord.immB w))
  | 6#3 => .ok (.bltu (InstWord.rs1 w) (InstWord.rs2 w) (InstWord.immB w))
  | 7#3 => .ok (.bgeu (InstWord.rs1 w) (InstWord.rs2 w) (InstWord.immB w))
  | f3 => .error (.unknownFunct3 0x63#7 f3)

/-- Opcode 0x33 (R328, R610). Under funct7 = 0 all eight values of funct3 are named. -/
def decodeAluReg (w : Word) : Except DecodeError Instr :=
  match InstWord.funct7 w with
  | 0x00#7 =>
    match InstWord.funct3 w with
    | 0#3 => .ok (.add (InstWord.rd w) (InstWord.rs1 w) (InstWord.rs2 w))
    | 1#3 => .ok (.sll (InstWord.rd w) (InstWord.rs1 w) (InstWord.rs2 w))
    | 2#3 => .ok (.slt (InstWord.rd w) (InstWord.rs1 w) (InstWord.rs2 w))
    | 3#3 => .ok (.sltu (InstWord.rd w) (InstWord.rs1 w) (InstWord.rs2 w))
    | 4#3 => .ok (.xor (InstWord.rd w) (InstWord.rs1 w) (InstWord.rs2 w))
    | 5#3 => .ok (.srl (InstWord.rd w) (InstWord.rs1 w) (InstWord.rs2 w))
    | 6#3 => .ok (.or (InstWord.rd w) (InstWord.rs1 w) (InstWord.rs2 w))
    | 7#3 => .ok (.and (InstWord.rd w) (InstWord.rs1 w) (InstWord.rs2 w))
    | f3 => .error (.unknownFunct3 0x33#7 f3)
  | 0x20#7 =>
    match InstWord.funct3 w with
    | 0#3 => .ok (.sub (InstWord.rd w) (InstWord.rs1 w) (InstWord.rs2 w))
    | 5#3 => .ok (.sra (InstWord.rd w) (InstWord.rs1 w) (InstWord.rs2 w))
    | f3 => .error (.unknownFunct7 0x33#7 f3 0x20#7)
  | f7 => .error (.unknownFunct7 0x33#7 (InstWord.funct3 w) f7)

/-- Dispatch on the opcode (R327, R328). -/
def decodeByOpcode (w : Word) : Except DecodeError Instr :=
  match InstWord.opcode w with
  | 0x73#7 => decodeSystem w
  | 0x0F#7 => .ok (decodeFence w)
  | 0x13#7 => decodeAluImm w
  | 0x03#7 => decodeLoad w
  | 0x23#7 => decodeStore w
  | 0x6F#7 => .ok (.jal (InstWord.rd w) (InstWord.immJ w))
  | 0x67#7 => decodeJalr w
  | 0x37#7 => .ok (.lui (InstWord.rd w) (InstWord.imm20 w))
  | 0x17#7 => .ok (.auipc (InstWord.rd w) (InstWord.imm20 w))
  | 0x63#7 => decodeBranch w
  | 0x33#7 => decodeAluReg w
  | op => .error (.unknownOpcode op)

/-- The decoder: the two whole words first, then the opcode (R325 to R330). -/
def decode (w : Word) : Except DecodeError Instr :=
  if w = ecallWord then .ok .ecall
  else if w = ebreakWord then .ok .ebreak
  else decodeByOpcode w

/-! ### Bytes of an instruction (R221: little-endian, four bytes) -/

/-- The word whose bytes, from the lowest address up, are the four given (R213, R221). -/
def wordOfBytes (b0 b1 b2 b3 : Byte) : Word := b3 ++ b2 ++ b1 ++ b0

/-- Byte `k` of a word: `w[8k+7 : 8k]` (R214). -/
def byteOf (w : Word) (k : Nat) : Byte := w.extractLsb' (8 * k) 8

/-- A word as it lies in memory, lowest address first (R213, R221). -/
def bytesOfWord (w : Word) : List Byte := [byteOf w 0, byteOf w 1, byteOf w 2, byteOf w 3]

/-- Decode the first instruction of a byte sequence; every instruction is four bytes long (R335). -/
def decodeBytes : List Byte → Except DecodeError (Instr × List Byte)
  | b0 :: b1 :: b2 :: b3 :: rest => (decode (wordOfBytes b0 b1 b2 b3)).map fun i => (i, rest)
  | _ => .error .truncated

/-- The low `nbits` bits of `w` as an instruction word; every bit above them is 0. -/
def tableWord (nbits w : Nat) : Word := BitVec.ofNat 32 (w % 2 ^ nbits)

/-- What the decoder reads from the bytes of an instruction whose bits are numbered as spec/opcode_table.json numbers them. -/
def decodeTableWord (nbits w : Nat) : Option Instr :=
  match decodeBytes (bytesOfWord (tableWord nbits w)) with
  | .ok (i, _) => some i
  | .error _ => none

/-! ### The encoder (R301 to R307) -/

/-- A register number as the 5-bit field that holds it (R310). -/
def regBits (r : Reg) : BitVec 5 := BitVec.ofFin r

/-- R301 and, with shamt for rs2, R303. -/
def encodeR (funct7 : BitVec 7) (rs2 : BitVec 5) (rs1 : Reg) (funct3 : BitVec 3) (rd : Reg) (opcode : BitVec 7) : Word :=
  funct7 ++ rs2 ++ regBits rs1 ++ funct3 ++ regBits rd ++ opcode

/-- R302; `rs1` is given as bits, for the CSR immediate forms put zimm there. -/
def encodeI (imm : BitVec 12) (rs1 : BitVec 5) (funct3 : BitVec 3) (rd : Reg) (opcode : BitVec 7) : Word :=
  imm ++ rs1 ++ funct3 ++ regBits rd ++ opcode

/-- R304. -/
def encodeS (imm : BitVec 12) (rs2 rs1 : Reg) (funct3 : BitVec 3) (opcode : BitVec 7) : Word :=
  imm.extractLsb' 5 7 ++ regBits rs2 ++ regBits rs1 ++ funct3 ++ imm.extractLsb' 0 5 ++ opcode

/-- R305: imm[12|10:5] above rs2, imm[4:1|11] in bits 11:7. -/
def encodeB (imm : BitVec 13) (rs2 rs1 : Reg) (funct3 : BitVec 3) (opcode : BitVec 7) : Word :=
  imm.extractLsb' 12 1 ++ imm.extractLsb' 5 6 ++ regBits rs2 ++ regBits rs1 ++ funct3 ++
    imm.extractLsb' 1 4 ++ imm.extractLsb' 11 1 ++ opcode

/-- R306. -/
def encodeU (imm20 : BitVec 20) (rd : Reg) (opcode : BitVec 7) : Word :=
  imm20 ++ regBits rd ++ opcode

/-- R307: imm[20|10:1|11|19:12] in bits 31:12. -/
def encodeJ (imm : BitVec 21) (rd : Reg) (opcode : BitVec 7) : Word :=
  imm.extractLsb' 20 1 ++ imm.extractLsb' 1 10 ++ imm.extractLsb' 11 1 ++ imm.extractLsb' 12 8 ++ regBits rd ++ opcode

/-- The word of a well-formed instruction, from the opcode table's match column and the format tables R301 to R307. -/
def encode : Instr → Word
  | .ecall => ecallWord
  | .ebreak => ebreakWord
  | .csrrw rd csr rs1 => encodeI csr (regBits rs1) 1#3 rd 0x73#7
  | .csrrs rd csr rs1 => encodeI csr (regBits rs1) 2#3 rd 0x73#7
  | .csrrc rd csr rs1 => encodeI csr (regBits rs1) 3#3 rd 0x73#7
  | .csrrwi rd csr zimm => encodeI csr zimm 5#3 rd 0x73#7
  | .csrrsi rd csr zimm => encodeI csr zimm 6#3 rd 0x73#7
  | .csrrci rd csr zimm => encodeI csr zimm 7#3 rd 0x73#7
  | .fence hi rs1 funct3 rd => encodeI hi (regBits rs1) funct3 rd 0x0F#7
  | .fenceI hi rs1 rd => encodeI hi (regBits rs1) 1#3 rd 0x0F#7
  | .addi rd rs1 imm => encodeI imm (regBits rs1) 0#3 rd 0x13#7
  | .slti rd rs1 imm => encodeI imm (regBits rs1) 2#3 rd 0x13#7
  | .sltiu rd rs1 imm => encodeI imm (regBits rs1) 3#3 rd 0x13#7
  | .xori rd rs1 imm => encodeI imm (regBits rs1) 4#3 rd 0x13#7
  | .ori rd rs1 imm => encodeI imm (regBits rs1) 6#3 rd 0x13#7
  | .andi rd rs1 imm => encodeI imm (regBits rs1) 7#3 rd 0x13#7
  | .slli rd rs1 shamt => encodeR 0x00#7 shamt rs1 1#3 rd 0x13#7
  | .srli rd rs1 shamt => encodeR 0x00#7 shamt rs1 5#3 rd 0x13#7
  | .srai rd rs1 shamt => encodeR 0x20#7 shamt rs1 5#3 rd 0x13#7
  | .lb rd imm rs1 => encodeI imm (regBits rs1) 0#3 rd 0x03#7
  | .lh rd imm rs1 => encodeI imm (regBits rs1) 1#3 rd 0x03#7
  | .lw rd imm rs1 => encodeI imm (regBits rs1) 2#3 rd 0x03#7
  | .lbu rd imm rs1 => encodeI imm (regBits rs1) 4#3 rd 0x03#7
  | .lhu rd imm rs1 => encodeI imm (regBits rs1) 5#3 rd 0x03#7
  | .sb rs2 imm rs1 => encodeS imm rs2 rs1 0#3 0x23#7
  | .sh rs2 imm rs1 => encodeS imm rs2 rs1 1#3 0x23#7
  | .sw rs2 imm rs1 => encodeS imm rs2 rs1 2#3 0x23#7
  | .jal rd offset => encodeJ offset rd 0x6F#7
  | .jalr rd imm rs1 => encodeI imm (regBits rs1) 0#3 rd 0x67#7
  | .lui rd imm20 => encodeU imm20 rd 0x37#7
  | .auipc rd imm20 => encodeU imm20 rd 0x17#7
  | .beq rs1 rs2 offset => encodeB offset rs2 rs1 0#3 0x63#7
  | .bne rs1 rs2 offset => encodeB offset rs2 rs1 1#3 0x63#7
  | .blt rs1 rs2 offset => encodeB offset rs2 rs1 4#3 0x63#7
  | .bge rs1 rs2 offset => encodeB offset rs2 rs1 5#3 0x63#7
  | .bltu rs1 rs2 offset => encodeB offset rs2 rs1 6#3 0x63#7
  | .bgeu rs1 rs2 offset => encodeB offset rs2 rs1 7#3 0x63#7
  | .add rd rs1 rs2 => encodeR 0x00#7 (regBits rs2) rs1 0#3 rd 0x33#7
  | .sub rd rs1 rs2 => encodeR 0x20#7 (regBits rs2) rs1 0#3 rd 0x33#7
  | .sll rd rs1 rs2 => encodeR 0x00#7 (regBits rs2) rs1 1#3 rd 0x33#7
  | .slt rd rs1 rs2 => encodeR 0x00#7 (regBits rs2) rs1 2#3 rd 0x33#7
  | .sltu rd rs1 rs2 => encodeR 0x00#7 (regBits rs2) rs1 3#3 rd 0x33#7
  | .xor rd rs1 rs2 => encodeR 0x00#7 (regBits rs2) rs1 4#3 rd 0x33#7
  | .srl rd rs1 rs2 => encodeR 0x00#7 (regBits rs2) rs1 5#3 rd 0x33#7
  | .sra rd rs1 rs2 => encodeR 0x20#7 (regBits rs2) rs1 5#3 rd 0x33#7
  | .or rd rs1 rs2 => encodeR 0x00#7 (regBits rs2) rs1 6#3 rd 0x33#7
  | .and rd rs1 rs2 => encodeR 0x00#7 (regBits rs2) rs1 7#3 rd 0x33#7

end Sys2Proof
end

