-- ==== Sys2Proof/Machine/Store.lean ====
section
/-! DEFINITION. A sparse store: a list of (key, value) pairs that stands for a total function from keys to values, every
unlisted key holding `d`. Memory (spec/20_memory.md R202) and the CSR file (spec/10_state.md R120) are two of them. The
canonical form is strictly rising keys and no listed value equal to `d`; `write` keeps it, so equal contents are equal
lists. -/

namespace Sys2Proof.Machine

/-- The value at a key. -/
def Store.read {α : Type} (d : α) : List (Nat × α) → Nat → α
  | [], _ => d
  | (k, v) :: rest, a => if k = a then v else Store.read d rest a

/-- Put a pair in front unless its value is `d`. -/
def Store.cons {α : Type} [DecidableEq α] (d : α) (a : Nat) (v : α) (rest : List (Nat × α)) : List (Nat × α) :=
  if v = d then rest else (a, v) :: rest

/-- Set the value at a key, in rising order of keys; writing `d` removes the pair. -/
def Store.write {α : Type} [DecidableEq α] (d : α) : List (Nat × α) → Nat → α → List (Nat × α)
  | [], a, v => Store.cons d a v []
  | (k, w) :: rest, a, v =>
    if a < k then Store.cons d a v ((k, w) :: rest)
    else if a = k then Store.cons d a v rest
    else (k, w) :: Store.write d rest a v

/-- The canonical form: keys strictly rise from `lo` on and lie below `hi`, and no value is `d`. -/
def Store.wfFrom {α : Type} [DecidableEq α] (d : α) (hi : Nat) : Nat → List (Nat × α) → Bool
  | _, [] => true
  | lo, (k, v) :: rest => decide (lo ≤ k) && decide (k < hi) && decide (v ≠ d) && Store.wfFrom d hi (k + 1) rest

end Sys2Proof.Machine
end

