-- ==== Sys2Proof/Machine/Ops.lean ====
section
/-! DEFINITION. The named operations every meaning is written over: registers and CSRs (spec/10_state.md R101, R120), the
memory port (spec/20_memory.md R210 to R215), writeback and advance (R160), and the one way a step halts (spec/00_scope.md
R18; spec/60_exceptions.md R730: no trap entry, and so R740 no return). -/

namespace Sys2Proof.Machine

/-- What a meaning answers. -/
abbrev Result := Host.Outcome State Fault Refusal

/-! ### General registers -/

/-- `x[i]`; x0 is hard-wired to 0 (R16, R101). -/
def State.readReg (s : State) (r : Reg) : Word := if r = 0 then 0 else s.x[r]

/-- `x[i] <- v`; a write to x0 is discarded (R16, R101). -/
def State.writeReg (s : State) (r : Reg) (v : Word) : State :=
  if r = 0 then s else { s with x := s.x.set r v }

/-- The end of every completed step: x0's cell is set to 0 unconditionally (R160, R162). -/
def State.clearX0 (s : State) : State := { s with x := s.x.set 0 0 }

/-! ### The CSR file -/

/-- `csr[a]`: plain storage, every address readable (R120, R121, R123). -/
def State.readCsr (s : State) (a : CsrAddr) : Word := Store.read 0 s.csr a.toNat

/-- `csr[a] <- v`: plain storage, every address writable with no side effect (R121, R123). -/
def State.writeCsr (s : State) (a : CsrAddr) (v : Word) : State :=
  { s with csr := Store.write 0 s.csr a.toNat v }

/-- The canonical form of the CSR file, every key a 12-bit address. -/
def CsrFile.wf (csr : CsrFile) : Bool := Store.wfFrom 0 4096 0 csr

/-! ### Memory -/

/-- What a byte that nothing has listed reads as (R202 gives none; DESIGN CHOICE, log entry 5). -/
def unlistedByte : Byte := 0

/-- The canonical form of memory under a capacity: addresses strictly rise and lie below the capacity (R201), and no listed
byte equals what an unlisted one reads as. -/
def Memory.wf (capacity : Nat) (mem : Memory) : Bool := Store.wfFrom unlistedByte capacity 0 mem

/-- `mem[a]`. -/
def State.readByte (s : State) (a : Nat) : Byte := Store.read unlistedByte s.mem a

/-- `mem[a] <- b`. -/
def State.writeByte (s : State) (a : Nat) (b : Byte) : State :=
  { s with mem := Store.write unlistedByte s.mem a b }

/-- Write bytes at rising addresses from `a` on. -/
def State.writeBytes (s : State) (a : Nat) : List Byte → State
  | [] => s
  | b :: rest => (s.writeByte a b).writeBytes (a + 1) rest

/-- The checks of every access, in the spec's order: alignment first (R211, R230; a one-byte access has none), then bounds,
on the integers, so that the sum does not wrap (R212, decision D5). -/
def checkAccess (capacity : Nat) (addr : Word) (size : Nat) : Except HaltReason Unit :=
  if addr.toNat % size ≠ 0 then .error (.misaligned addr size)
  else if addr.toNat + size > capacity then .error (.outOfRange addr size capacity)
  else .ok ()

/-- `MemRead(addr, 1)` (R210). -/
def State.memRead8 (s : State) (addr : Word) : Except HaltReason (BitVec 8) :=
  (checkAccess s.capacity addr 1).map fun _ => s.readByte addr.toNat

/-- `MemRead(addr, 2)`, little-endian (R210, R213). -/
def State.memRead16 (s : State) (addr : Word) : Except HaltReason (BitVec 16) :=
  (checkAccess s.capacity addr 2).map fun _ => s.readByte (addr.toNat + 1) ++ s.readByte addr.toNat

/-- `MemRead(addr, 4)`, little-endian (R210, R213). -/
def State.memRead32 (s : State) (addr : Word) : Except HaltReason (BitVec 32) :=
  (checkAccess s.capacity addr 4).map fun _ =>
    wordOfBytes (s.readByte addr.toNat) (s.readByte (addr.toNat + 1)) (s.readByte (addr.toNat + 2))
      (s.readByte (addr.toNat + 3))

/-- `MemWrite(addr, 1, v)` (R214): a failed check writes no byte. -/
def State.memWrite8 (s : State) (addr : Word) (v : Word) : Except HaltReason State :=
  (checkAccess s.capacity addr 1).map fun _ => s.writeBytes addr.toNat [byteOf v 0]

/-- `MemWrite(addr, 2, v)` (R214). -/
def State.memWrite16 (s : State) (addr : Word) (v : Word) : Except HaltReason State :=
  (checkAccess s.capacity addr 2).map fun _ => s.writeBytes addr.toNat [byteOf v 0, byteOf v 1]

/-- `MemWrite(addr, 4, v)` (R214). -/
def State.memWrite32 (s : State) (addr : Word) (v : Word) : Except HaltReason State :=
  (checkAccess s.capacity addr 4).map fun _ => s.writeBytes addr.toNat [byteOf v 0, byteOf v 1, byteOf v 2, byteOf v 3]

/-! ### The end of a step -/

/-- `raise Halt(r)`: nothing is committed, only the run state changes (R18, R164, R730). The pc stays at the halting
instruction (decision D8, log entry 8). -/
def State.halt (s : State) (r : HaltReason) : State := { s with run := .halted r }

/-- Writeback of the staged register write, x0 cleared, the staged CSR write, and the pc's advance (R160). -/
def State.commit (s : State) (wb : Option (Reg × Word)) (csrw : Option (CsrAddr × Word)) (nextPc : Word) : State :=
  let s1 := match wb with
    | some (rd, v) => s.writeReg rd v
    | none => s
  let s2 := s1.clearX0
  let s3 := match csrw with
    | some (a, v) => s2.writeCsr a v
    | none => s2
  { s3 with pc := nextPc }

/-- The address of the next sequential instruction, modulo 2^32 (R111, R113). -/
def State.pcNext (s : State) : Word := s.pc + 4

/-- An instruction that writes x[rd] and goes on to pc + 4. -/
def State.writeAndAdvance (s : State) (rd : Reg) (v : Word) : Result :=
  .next (s.commit (some (rd, v)) none s.pcNext)

/-- An instruction that writes x[rd] and goes to `target`. -/
def State.linkAndJump (s : State) (rd : Reg) (target : Word) : Result :=
  .next (s.commit (some (rd, s.pcNext)) none target)

/-- An instruction that writes nothing and goes to `target`. -/
def State.goTo (s : State) (target : Word) : Result := .next (s.commit none none target)

/-- An instruction that ends in `raise Halt(r)`. -/
def State.raiseHalt (s : State) (r : HaltReason) : Result := .next (s.halt r)

/-- `ea = x[rs1] + imm`, modulo 2^32 (spec/44_loads.md R505, spec/45_stores.md R525). -/
def State.effectiveAddress (s : State) (rs1 : Reg) (imm : Word) : Word := s.readReg rs1 + imm

/-- A load: a failed read halts with its reason (R18, R505), else the value is written to rd. -/
def State.finishLoad (s : State) (rd : Reg) : Except HaltReason Word → Result
  | .ok v => s.writeAndAdvance rd v
  | .error r => s.raiseHalt r

/-- A store: a failed write halts with its reason and has written nothing (R525, R163), else the pc advances. -/
def State.finishStore (s : State) : Except HaltReason State → Result
  | .ok t => t.goTo s.pcNext
  | .error r => s.raiseHalt r

end Sys2Proof.Machine
end

