-- ==== Sys2Proof/Machine/AluImm.lean ====
section
/-! DEFINITION. The register-immediate ALU instructions (spec/43_alu_imm.md R460 to R469). -/

namespace Sys2Proof.Machine

/-- ADDI (R460). -/
def execAddi (rd rs1 : Reg) (imm : BitVec 12) (s : State) : Result :=
  s.writeAndAdvance rd (s.readReg rs1 + immI imm)

/-- SLTI, signed (R461; spec/90_conflicts.md C2). -/
def execSlti (rd rs1 : Reg) (imm : BitVec 12) (s : State) : Result :=
  s.writeAndAdvance rd (boolWord (ltSigned (s.readReg rs1) (immI imm)))

/-- SLTIU: the immediate is sign-extended, then compared unsigned (R462). -/
def execSltiu (rd rs1 : Reg) (imm : BitVec 12) (s : State) : Result :=
  s.writeAndAdvance rd (boolWord (ltUnsigned (s.readReg rs1) (immI imm)))

/-- XORI (R463). -/
def execXori (rd rs1 : Reg) (imm : BitVec 12) (s : State) : Result :=
  s.writeAndAdvance rd (s.readReg rs1 ^^^ immI imm)

/-- ORI (R464). -/
def execOri (rd rs1 : Reg) (imm : BitVec 12) (s : State) : Result :=
  s.writeAndAdvance rd (s.readReg rs1 ||| immI imm)

/-- ANDI (R465). -/
def execAndi (rd rs1 : Reg) (imm : BitVec 12) (s : State) : Result :=
  s.writeAndAdvance rd (s.readReg rs1 &&& immI imm)

/-- SLLI (R466). -/
def execSlli (rd rs1 : Reg) (shamt : BitVec 5) (s : State) : Result :=
  s.writeAndAdvance rd (shiftLeft (s.readReg rs1) shamt)

/-- SRLI (R467). -/
def execSrli (rd rs1 : Reg) (shamt : BitVec 5) (s : State) : Result :=
  s.writeAndAdvance rd (shiftRightLogical (s.readReg rs1) shamt)

/-- SRAI (R468). -/
def execSrai (rd rs1 : Reg) (shamt : BitVec 5) (s : State) : Result :=
  s.writeAndAdvance rd (shiftRightArith (s.readReg rs1) shamt)

end Sys2Proof.Machine
end

