-- ==== Sys2Proof/Machine/AluReg.lean ====
section
/-! DEFINITION. The register-register ALU instructions (spec/49_alu_reg.md R600 to R610). -/

namespace Sys2Proof.Machine

/-- ADD (R600). -/
def execAdd (rd rs1 rs2 : Reg) (s : State) : Result :=
  s.writeAndAdvance rd (s.readReg rs1 + s.readReg rs2)

/-- SUB (R601). -/
def execSub (rd rs1 rs2 : Reg) (s : State) : Result :=
  s.writeAndAdvance rd (s.readReg rs1 - s.readReg rs2)

/-- SLL (R602). -/
def execSll (rd rs1 rs2 : Reg) (s : State) : Result :=
  s.writeAndAdvance rd (shiftLeft (s.readReg rs1) (regShamt (s.readReg rs2)))

/-- SLT (R603). -/
def execSlt (rd rs1 rs2 : Reg) (s : State) : Result :=
  s.writeAndAdvance rd (boolWord (ltSigned (s.readReg rs1) (s.readReg rs2)))

/-- SLTU (R604). -/
def execSltu (rd rs1 rs2 : Reg) (s : State) : Result :=
  s.writeAndAdvance rd (boolWord (ltUnsigned (s.readReg rs1) (s.readReg rs2)))

/-- XOR (R605). -/
def execXor (rd rs1 rs2 : Reg) (s : State) : Result :=
  s.writeAndAdvance rd (s.readReg rs1 ^^^ s.readReg rs2)

/-- SRL (R606). -/
def execSrl (rd rs1 rs2 : Reg) (s : State) : Result :=
  s.writeAndAdvance rd (shiftRightLogical (s.readReg rs1) (regShamt (s.readReg rs2)))

/-- SRA (R607). -/
def execSra (rd rs1 rs2 : Reg) (s : State) : Result :=
  s.writeAndAdvance rd (shiftRightArith (s.readReg rs1) (regShamt (s.readReg rs2)))

/-- OR (R608). -/
def execOr (rd rs1 rs2 : Reg) (s : State) : Result :=
  s.writeAndAdvance rd (s.readReg rs1 ||| s.readReg rs2)

/-- AND (R609). -/
def execAnd (rd rs1 rs2 : Reg) (s : State) : Result :=
  s.writeAndAdvance rd (s.readReg rs1 &&& s.readReg rs2)

end Sys2Proof.Machine
end

