-- ==== Sys2Proof/Machine/Branches.lean ====
section
/-! DEFINITION. The conditional branches (spec/48_branches.md R580 to R587): no register, no flag and no memory; the target is
not checked when the branch executes. -/

namespace Sys2Proof.Machine

/-- Taken: pc + imm_b, modulo 2^32; not taken: pc + 4 (R587). -/
def State.branch (s : State) (taken : Bool) (offset : BitVec 13) : Result :=
  s.goTo (if taken then s.pc + immB offset else s.pcNext)

/-- BEQ (R580). -/
def execBeq (rs1 rs2 : Reg) (offset : BitVec 13) (s : State) : Result :=
  s.branch (s.readReg rs1 == s.readReg rs2) offset

/-- BNE (R581). -/
def execBne (rs1 rs2 : Reg) (offset : BitVec 13) (s : State) : Result :=
  s.branch (s.readReg rs1 != s.readReg rs2) offset

/-- BLT, signed (R582). -/
def execBlt (rs1 rs2 : Reg) (offset : BitVec 13) (s : State) : Result :=
  s.branch (ltSigned (s.readReg rs1) (s.readReg rs2)) offset

/-- BGE, the complement of BLT (R583). -/
def execBge (rs1 rs2 : Reg) (offset : BitVec 13) (s : State) : Result :=
  s.branch (!ltSigned (s.readReg rs1) (s.readReg rs2)) offset

/-- BLTU, unsigned (R584). -/
def execBltu (rs1 rs2 : Reg) (offset : BitVec 13) (s : State) : Result :=
  s.branch (ltUnsigned (s.readReg rs1) (s.readReg rs2)) offset

/-- BGEU, the complement of BLTU (R585). -/
def execBgeu (rs1 rs2 : Reg) (offset : BitVec 13) (s : State) : Result :=
  s.branch (!ltUnsigned (s.readReg rs1) (s.readReg rs2)) offset

end Sys2Proof.Machine
end

