-- ==== Sys2Proof/Machine/Csr.lean ====
section
/-! DEFINITION. The six CSR instructions (spec/41_csr.md R420 to R428). rd always receives the old value; the source and the
old value are read before either write is committed (R426). No address is checked (R427). -/

namespace Sys2Proof.Machine

/-- The protocol common to the six: rd gets the old value, the CSR the new one where there is one (R426). -/
def State.csrAccess (s : State) (rd : Reg) (csr : CsrAddr) (new : Option Word) : Result :=
  .next (s.commit (some (rd, s.readCsr csr)) (new.map fun v => (csr, v)) s.pcNext)

/-- The RS and RSI forms set the source's bits, and skip the write if the source is zero (R421, R424). -/
def setBits (old src : Word) : Option Word := if src ≠ 0 then some (old ||| src) else none

/-- The RC and RCI forms clear the source's bits, and skip the write if the source is zero (R422, R425). -/
def clearBits (old src : Word) : Option Word := if src ≠ 0 then some (old &&& ~~~src) else none

/-- CSRRW (R420). -/
def execCsrrw (rd : Reg) (csr : CsrAddr) (rs1 : Reg) (s : State) : Result :=
  s.csrAccess rd csr (some (s.readReg rs1))

/-- CSRRS (R421). -/
def execCsrrs (rd : Reg) (csr : CsrAddr) (rs1 : Reg) (s : State) : Result :=
  s.csrAccess rd csr (setBits (s.readCsr csr) (s.readReg rs1))

/-- CSRRC (R422). -/
def execCsrrc (rd : Reg) (csr : CsrAddr) (rs1 : Reg) (s : State) : Result :=
  s.csrAccess rd csr (clearBits (s.readCsr csr) (s.readReg rs1))

/-- CSRRWI (R423). -/
def execCsrrwi (rd : Reg) (csr : CsrAddr) (zimm : BitVec 5) (s : State) : Result :=
  s.csrAccess rd csr (some (zimm32 zimm))

/-- CSRRSI (R424). -/
def execCsrrsi (rd : Reg) (csr : CsrAddr) (zimm : BitVec 5) (s : State) : Result :=
  s.csrAccess rd csr (setBits (s.readCsr csr) (zimm32 zimm))

/-- CSRRCI (R425). -/
def execCsrrci (rd : Reg) (csr : CsrAddr) (zimm : BitVec 5) (s : State) : Result :=
  s.csrAccess rd csr (clearBits (s.readCsr csr) (zimm32 zimm))

end Sys2Proof.Machine
end

