-- ==== Sys2Proof/Machine/Fence.lean ====
section
/-! DEFINITION. FENCE and FENCE.I (spec/42_fence.md R440, R441): no effect but the pc's advance, whatever their other bits
hold. Memory is one agent's and already ordered, and every fetch sees every earlier store (spec/20_memory.md R260, R275). -/

namespace Sys2Proof.Machine

/-- FENCE (R440). -/
def execFence (s : State) : Result := s.goTo s.pcNext

/-- FENCE.I (R441). -/
def execFenceI (s : State) : Result := s.goTo s.pcNext

end Sys2Proof.Machine
end

