-- ==== Sys2Proof/Machine/Jumps.lean ====
section
/-! DEFINITION. JAL and JALR (spec/46_jumps.md R540, R541, R545). The target is computed from the values at the start of the
step (decision D9) and is not checked; the next fetch checks it. -/

namespace Sys2Proof.Machine

/-- JALR's target: bit 0 forcibly cleared (R541). -/
def jalrTarget (base imm : Word) : Word := (base + imm) &&& 0xFFFFFFFE#32

/-- JAL (R540). -/
def execJal (rd : Reg) (offset : BitVec 21) (s : State) : Result :=
  s.linkAndJump rd (s.pc + immJ offset)

/-- JALR (R541). -/
def execJalr (rd : Reg) (imm : BitVec 12) (rs1 : Reg) (s : State) : Result :=
  s.linkAndJump rd (jalrTarget (s.readReg rs1) (immI imm))

end Sys2Proof.Machine
end

