-- ==== Sys2Proof/Machine/Loads.lean ====
section
/-! DEFINITION. The loads (spec/44_loads.md R500 to R505): the memory port reads, the core extends. -/

namespace Sys2Proof.Machine

/-- LB, sign-extended (R500). -/
def execLb (rd : Reg) (imm : BitVec 12) (rs1 : Reg) (s : State) : Result :=
  s.finishLoad rd ((s.memRead8 (s.effectiveAddress rs1 (immI imm))).map sext32)

/-- LH, sign-extended (R501). -/
def execLh (rd : Reg) (imm : BitVec 12) (rs1 : Reg) (s : State) : Result :=
  s.finishLoad rd ((s.memRead16 (s.effectiveAddress rs1 (immI imm))).map sext32)

/-- LW (R502). -/
def execLw (rd : Reg) (imm : BitVec 12) (rs1 : Reg) (s : State) : Result :=
  s.finishLoad rd (s.memRead32 (s.effectiveAddress rs1 (immI imm)))

/-- LBU, zero-extended (R503). -/
def execLbu (rd : Reg) (imm : BitVec 12) (rs1 : Reg) (s : State) : Result :=
  s.finishLoad rd ((s.memRead8 (s.effectiveAddress rs1 (immI imm))).map zext32)

/-- LHU, zero-extended (R504). -/
def execLhu (rd : Reg) (imm : BitVec 12) (rs1 : Reg) (s : State) : Result :=
  s.finishLoad rd ((s.memRead16 (s.effectiveAddress rs1 (immI imm))).map zext32)

end Sys2Proof.Machine
end

