-- ==== Sys2Proof/Machine/Stores.lean ====
section
/-! DEFINITION. The stores (spec/45_stores.md R520 to R525): the low 8, 16 or 32 bits of x[rs2]. -/

namespace Sys2Proof.Machine

/-- SB (R520). -/
def execSb (rs2 : Reg) (imm : BitVec 12) (rs1 : Reg) (s : State) : Result :=
  s.finishStore (s.memWrite8 (s.effectiveAddress rs1 (immS imm)) (s.readReg rs2))

/-- SH (R521). -/
def execSh (rs2 : Reg) (imm : BitVec 12) (rs1 : Reg) (s : State) : Result :=
  s.finishStore (s.memWrite16 (s.effectiveAddress rs1 (immS imm)) (s.readReg rs2))

/-- SW (R522). -/
def execSw (rs2 : Reg) (imm : BitVec 12) (rs1 : Reg) (s : State) : Result :=
  s.finishStore (s.memWrite32 (s.effectiveAddress rs1 (immS imm)) (s.readReg rs2))

end Sys2Proof.Machine
end

