-- ==== Sys2Proof/Machine/System.lean ====
section
/-! DEFINITION. ECALL and EBREAK (spec/40_system.md R400 to R402): both stop the core, each with a reason of its own, and
commit nothing. There is no trap to take (spec/60_exceptions.md R730). -/

namespace Sys2Proof.Machine

/-- ECALL (R400). -/
def execEcall (s : State) : Result := s.raiseHalt .environmentCall

/-- EBREAK (R401). -/
def execEbreak (s : State) : Result := s.raiseHalt .breakpoint

end Sys2Proof.Machine
end

