-- ==== Sys2Proof/Machine/UpperImm.lean ====
section
/-! DEFINITION. LUI and AUIPC (spec/47_upper_imm.md R560, R561). -/

namespace Sys2Proof.Machine

/-- LUI (R560). -/
def execLui (rd : Reg) (imm20 : BitVec 20) (s : State) : Result := s.writeAndAdvance rd (immU imm20)

/-- AUIPC: relative to this instruction's own address (R561). -/
def execAuipc (rd : Reg) (imm20 : BitVec 20) (s : State) : Result := s.writeAndAdvance rd (s.pc + immU imm20)

end Sys2Proof.Machine
end

