-- ==== Sys2Proof/Machine/Trace.lean ====
section
/-! DEFINITION. The trace hook (spec/60_exceptions.md R780 to R787): the record of an instruction as data, when a step emits
one, and, for completeness, the text of a record (R786). The choices the source leaves open are the spec's own (decisions
D14, D15; log entry 7). -/

namespace Sys2Proof.Machine

/-- The mnemonic of a record (R780, R787). -/
def mnemonicOf : Instr → Mnemonic
  | .ecall => .ecall | .ebreak => .ebreak
  | .csrrw .. => .csrrw | .csrrs .. => .csrrs | .csrrc .. => .csrrc
  | .csrrwi .. => .csrrwi | .csrrsi .. => .csrrsi | .csrrci .. => .csrrci
  | .fence .. => .fence | .fenceI .. => .fenceI
  | .addi .. => .addi | .slti .. => .slti | .sltiu .. => .sltiu | .xori .. => .xori | .ori .. => .ori | .andi .. => .andi
  | .slli .. => .slli | .srli .. => .srli | .srai .. => .srai
  | .lb .. => .lb | .lh .. => .lh | .lw .. => .lw | .lbu .. => .lbu | .lhu .. => .lhu
  | .sb .. => .sb | .sh .. => .sh | .sw .. => .sw
  | .jal .. => .jal | .jalr .. => .jalr
  | .lui .. => .lui | .auipc .. => .auipc
  | .beq .. => .beq | .bne .. => .bne | .blt .. => .blt | .bge .. => .bge | .bltu .. => .bltu | .bgeu .. => .bgeu
  | .add .. => .add | .sub .. => .sub | .sll .. => .sll | .slt .. => .slt | .sltu .. => .sltu
  | .xor .. => .xor | .srl .. => .srl | .sra .. => .sra | .or .. => .or | .and .. => .and

/-- The destination register of an instruction that has one (spec/10_state.md R103); the ignored rd bits of a fence are
none. -/
def destOf : Instr → Option Reg
  | .csrrw rd _ _ | .csrrs rd _ _ | .csrrc rd _ _ => some rd
  | .csrrwi rd _ _ | .csrrsi rd _ _ | .csrrci rd _ _ => some rd
  | .addi rd _ _ | .slti rd _ _ | .sltiu rd _ _ | .xori rd _ _ | .ori rd _ _ | .andi rd _ _ => some rd
  | .slli rd _ _ | .srli rd _ _ | .srai rd _ _ => some rd
  | .lb rd _ _ | .lh rd _ _ | .lw rd _ _ | .lbu rd _ _ | .lhu rd _ _ => some rd
  | .jal rd _ | .jalr rd _ _ | .lui rd _ | .auipc rd _ => some rd
  | .add rd _ _ | .sub rd _ _ | .sll rd _ _ | .slt rd _ _ | .sltu rd _ _ => some rd
  | .xor rd _ _ | .srl rd _ _ | .sra rd _ _ | .or rd _ _ | .and rd _ _ => some rd
  | .sb .. | .sh .. | .sw .. => none
  | .beq .. | .bne .. | .blt .. | .bge .. | .bltu .. | .bgeu .. => none
  | .fence .. | .fenceI .. | .ecall | .ebreak => none

/-- A signed immediate or offset as an operand. -/
def immOperand {w : Nat} (v : BitVec w) : TraceOperand := .imm v.toInt

/-- A shift amount, zimm or 20-bit field as an operand. -/
def natOperand {w : Nat} (v : BitVec w) : TraceOperand := .imm v.toNat

/-- The operands of a record, in the order R787 shows them. -/
def operandsOf : Instr → List TraceOperand
  | .addi rd rs1 imm | .slti rd rs1 imm | .sltiu rd rs1 imm => [.reg rd, .reg rs1, immOperand imm]
  | .xori rd rs1 imm | .ori rd rs1 imm | .andi rd rs1 imm => [.reg rd, .reg rs1, immOperand imm]
  | .slli rd rs1 shamt | .srli rd rs1 shamt | .srai rd rs1 shamt => [.reg rd, .reg rs1, natOperand shamt]
  | .lb rd imm rs1 | .lh rd imm rs1 | .lw rd imm rs1 => [.reg rd, immOperand imm, .reg rs1]
  | .lbu rd imm rs1 | .lhu rd imm rs1 | .jalr rd imm rs1 => [.reg rd, immOperand imm, .reg rs1]
  | .sb rs2 imm rs1 | .sh rs2 imm rs1 | .sw rs2 imm rs1 => [.reg rs2, immOperand imm, .reg rs1]
  | .beq rs1 rs2 offset | .bne rs1 rs2 offset | .blt rs1 rs2 offset => [.reg rs1, .reg rs2, immOperand offset]
  | .bge rs1 rs2 offset | .bltu rs1 rs2 offset | .bgeu rs1 rs2 offset => [.reg rs1, .reg rs2, immOperand offset]
  | .add rd rs1 rs2 | .sub rd rs1 rs2 | .sll rd rs1 rs2 | .slt rd rs1 rs2 => [.reg rd, .reg rs1, .reg rs2]
  | .sltu rd rs1 rs2 | .xor rd rs1 rs2 | .srl rd rs1 rs2 => [.reg rd, .reg rs1, .reg rs2]
  | .sra rd rs1 rs2 | .or rd rs1 rs2 | .and rd rs1 rs2 => [.reg rd, .reg rs1, .reg rs2]
  | .jal rd offset => [.reg rd, immOperand offset]
  | .lui rd imm20 | .auipc rd imm20 => [.reg rd, natOperand imm20]
  | .csrrw rd csr rs1 | .csrrs rd csr rs1 | .csrrc rd csr rs1 => [.reg rd, .csr csr, .reg rs1]
  | .csrrwi rd csr zimm | .csrrsi rd csr zimm | .csrrci rd csr zimm => [.reg rd, .csr csr, natOperand zimm]
  | .fence .. | .fenceI .. | .ecall | .ebreak => []

/-- `wb`: present exactly when the instruction has a destination register other than x0; its value is x[rd] after writeback
(R780). -/
def writebackOf (i : Instr) (after : State) : Option (Reg × Word) :=
  match destOf i with
  | some rd => if rd = 0 then none else some (rd, after.readReg rd)
  | none => none

/-- The record of instruction `i`, fetched as `word` at `pc`, with `after` the state its step leaves (R780). -/
def traceRecord (pc word : Word) (i : Instr) (after : State) : TraceRecord where
  pc := pc
  word := word
  mnemonic := mnemonicOf i
  operands := operandsOf i
  wb := writebackOf i after

/-- The record of an illegal word (R783). -/
def illegalRecord (pc word : Word) : TraceRecord where
  pc := pc
  word := word
  mnemonic := .illegal
  operands := []
  wb := none

/-- Output a record if the trace flag is true (R781). -/
def State.emit (s : State) (r : TraceRecord) : State :=
  if s.trace then { s with traceOut := s.traceOut ++ [r] } else s

/-- Which steps that ran an instruction emit its record: those that complete (R781) and those that end at ECALL or EBREAK
(R782), not those that halt on a memory error (R784). -/
def emitsRecord : RunState → Bool
  | .running => true
  | .halted .environmentCall => true
  | .halted .breakpoint => true
  | .halted _ => false
  | .unstarted => false

/-- The trace hook around an instruction that ran from state `before` and left state `after`. -/
def traceInstr (before : State) (word : Word) (i : Instr) (after : State) : State :=
  if emitsRecord after.run then after.emit (traceRecord before.pc word i after) else after

/-! ### The text of a record (R786; out of the core's scope, R6, and given for completeness) -/

/-- Lower-case mnemonics (decision D14); FENCE.I is labelled `fence.i` (decision D15). -/
def Mnemonic.text : Mnemonic → String
  | .ecall => "ecall" | .ebreak => "ebreak"
  | .csrrw => "csrrw" | .csrrs => "csrrs" | .csrrc => "csrrc"
  | .csrrwi => "csrrwi" | .csrrsi => "csrrsi" | .csrrci => "csrrci"
  | .fence => "fence" | .fenceI => "fence.i"
  | .addi => "addi" | .slti => "slti" | .sltiu => "sltiu" | .xori => "xori" | .ori => "ori" | .andi => "andi"
  | .slli => "slli" | .srli => "srli" | .srai => "srai"
  | .lb => "lb" | .lh => "lh" | .lw => "lw" | .lbu => "lbu" | .lhu => "lhu"
  | .sb => "sb" | .sh => "sh" | .sw => "sw"
  | .jal => "jal" | .jalr => "jalr"
  | .lui => "lui" | .auipc => "auipc"
  | .beq => "beq" | .bne => "bne" | .blt => "blt" | .bge => "bge" | .bltu => "bltu" | .bgeu => "bgeu"
  | .add => "add" | .sub => "sub" | .sll => "sll" | .slt => "slt" | .sltu => "sltu"
  | .xor => "xor" | .srl => "srl" | .sra => "sra" | .or => "or" | .and => "and"
  | .illegal => "illegal"

/-- One lower-case hex digit. -/
def hexDigit (n : Nat) : Char :=
  if n % 16 < 10 then Char.ofNat (48 + n % 16) else Char.ofNat (87 + n % 16)

/-- The `k` low hex digits of `n`, the most significant first. -/
def hexDigits : Nat → Nat → List Char
  | 0, _ => []
  | k + 1, n => hexDigit (n / 16 ^ k) :: hexDigits k n

/-- `0x` and the hex digits of `n` with no leading zeros, for values of up to `k` digits. R786 and R787 say only that a CSR
address is written in hex: dropping its leading zeros (0x005 is written `0x5`) is the model's DESIGN CHOICE (log entry 22;
unsafe, for the text alone). -/
def hexShort (k n : Nat) : String :=
  let ds := (hexDigits k n).dropWhile (· == '0')
  String.ofList ('0' :: 'x' :: (if ds.isEmpty then ['0'] else ds))

/-- `0x` and eight hex digits. -/
def hexWord (w : Word) : String := String.ofList ('0' :: 'x' :: hexDigits 8 w.toNat)

/-- Registers as `x` and the index, immediates as signed decimal, or as hex where `hexImm`, CSR addresses as hex. -/
def TraceOperand.text (hexImm : Bool) : TraceOperand → String
  | .reg r => "x" ++ toString r.val
  | .imm n => if hexImm then hexShort 8 n.toNat else toString n
  | .csr a => hexShort 3 a.toNat

/-- The mnemonics whose operands are written `a,imm(base)` (R787). -/
def Mnemonic.baseOffset : Mnemonic → Bool
  | .lb | .lh | .lw | .lbu | .lhu | .sb | .sh | .sw | .jalr => true
  | _ => false

/-- LUI and AUIPC render their immediate as hex (R786). -/
def Mnemonic.hexImm : Mnemonic → Bool
  | .lui | .auipc => true
  | _ => false

/-- The operand list as R787 writes it. -/
def operandText (m : Mnemonic) (ops : List TraceOperand) : String :=
  match m.baseOffset, ops with
  | true, [a, off, base] => a.text false ++ "," ++ off.text false ++ "(" ++ base.text false ++ ")"
  | _, _ => ",".intercalate (ops.map (TraceOperand.text m.hexImm))

/-- The line of a record (R786). -/
def TraceRecord.text (r : TraceRecord) : String :=
  "PC=" ++ hexWord r.pc ++ " INST=" ++ hexWord r.word ++ " " ++ r.mnemonic.text
    ++ (if r.operands.isEmpty then "" else " " ++ operandText r.mnemonic r.operands)
    ++ (match r.wb with
      | some (rd, v) => " WB: x" ++ toString rd.val ++ "=" ++ hexWord v
      | none => "")

end Sys2Proof.Machine
end

