-- ==== Sys2Proof/Machine/Fetch.lean ====
section
/-! DEFINITION. The parts of the step around an instruction's meaning (spec/10_state.md R160): the fetch, the step of an
illegal word, and how an instruction word is put where the next step fetches. -/

namespace Sys2Proof.Machine

/-- Instruction fetch: `MemRead(pc, 4)` (spec/20_memory.md R221, R232). -/
def State.fetch (s : State) : Except HaltReason Word := s.memRead32 s.pc

/-- A step whose fetch failed: it halts with the port's error and emits no record (R232, R784). -/
def State.fetchFailed (s : State) (r : HaltReason) : Result := s.raiseHalt r

/-- A step whose word decodes to nothing: the record, if tracing, and then the halt (R330, R783). -/
def State.illegalWord (s : State) (word : Word) : Result :=
  (s.emit (illegalRecord s.pc word)).raiseHalt (.illegalInstruction s.pc word)

/-- The trace hook on what an instruction's meaning answered. -/
def State.afterInstr (s : State) (word : Word) (i : Instr) : Result → Result
  | .next t => .next (traceInstr s word i t)
  | .fault f => .fault f
  | .refused r => .refused r

/-- The pc with its two low bits cleared, where a word can be fetched from. -/
def alignedPc (pc : Word) : Word := pc &&& 0xFFFFFFFC#32

/-- `s` Running, with `word` in memory where the next step fetches, and nothing else changed that this does not need: a pc
already aligned, a capacity that already reaches past it and a core already Running stay as they are (log entry 16). -/
def State.placeWord (s : State) (word : Word) : State :=
  let pc := alignedPc s.pc
  { s with run := .running, pc := pc, capacity := max s.capacity (pc.toNat + 4) }.writeBytes pc.toNat (bytesOfWord word)

end Sys2Proof.Machine
end

