-- ==== Sys2Proof/Machine/Step.lean ====
section
/-! DEFINITION. One step (spec/10_state.md R160): fetch, decode, execute (which commits its own writeback and advance), and
the trace hook. A step exists in Running only (R132, R134). -/

namespace Sys2Proof.Machine

/-- The step. -/
def step (s : State) : Host.Outcome State Fault Refusal :=
  match s.run with
  | .unstarted => .fault .stuckUnstarted
  | .halted r => .refused (.stepWhileHalted r)
  | .running =>
    match s.fetch with
    | .error r => s.fetchFailed r
    | .ok word =>
      match decode word with
      | .error _ => s.illegalWord word
      | .ok i => s.afterInstr word i (exec i s)

/-- `s` with an instruction of spec/opcode_table.json, its bits numbered as the table numbers them, stored where `step`
fetches next (log entry 16). -/
def State.withFetchWord (s : State) (nbits w : Nat) : State := s.placeWord (tableWord nbits w)

end Sys2Proof.Machine
end

