-- ==== Sys2Proof/Machine/HostOps.lean ====
section
/-! DEFINITION. The host operations of spec/10_state.md R150 to R155. They happen between steps and each is one atomic
transaction; `step` never performs one (R166). -/

namespace Sys2Proof.Machine

/-- `reset(startPc)` (spec/70_reset_and_hazards.md R800 to R802): registers and CSRs 0, pc the argument, Running; memory and
the trace flag stay. Allowed in every run state (R151). -/
def State.hostReset (s : State) (startPc : Word) : State :=
  { s with x := Vector.replicate 32 0, csr := [], pc := startPc, run := .running }

/-- `loadBytes(bytes, base)` (spec/20_memory.md R285): refused, with nothing copied, when the sequence would run past the
capacity; no alignment constraint; it touches no core state (R150). -/
def State.loadBytes (s : State) (bytes : List Byte) (base : Word) : Except HaltReason State :=
  if base.toNat + bytes.length > s.capacity then .error (.outOfRange base bytes.length s.capacity)
  else .ok (s.writeBytes base.toNat bytes)

/-- `readReg(i)` (R153). -/
def State.hostReadReg (s : State) (i : Reg) : Word := s.readReg i

/-- `readCsr(a)` (R154). -/
def State.hostReadCsr (s : State) (a : CsrAddr) : Word := s.readCsr a

/-- `setTrace(b)` (R155). -/
def State.setTrace (s : State) (b : Bool) : State := { s with trace := b }

/-- What `step()` returns to the host, from the state the step leaves (R152): `Stop(reason)` as `some reason`, `Continue` as
`none`. -/
def stepAnswer (after : State) : Option HaltReason :=
  match after.run with
  | .halted r => some r
  | .running => none
  | .unstarted => none

end Sys2Proof.Machine
end

