-- ==== Sys2Proof/Safety.lean ====
section
/-! DEFINITION. How a run ends, in the terms claims use (spec/60_exceptions.md R702, spec/70_reset_and_hazards.md R840), and
the invariant of the machine's states. -/

namespace Sys2Proof.Machine

/-- The two classes of halt reasons (R702): the expected stops, and the fatal errors a claim reads as faults. -/
def HaltReason.fatal : HaltReason → Bool
  | .breakpoint => false
  | .environmentCall => false
  | .outOfRange .. => true
  | .misaligned .. => true
  | .illegalInstruction .. => true

/-- The run has ended cleanly: at EBREAK or ECALL (R840). -/
def State.endedCleanly (s : State) : Prop := ∃ r, s.run = .halted r ∧ r.fatal = false

/-- The run has ended at a fault (R840). -/
def State.endedAtFault (s : State) : Prop := ∃ r, s.run = .halted r ∧ r.fatal = true

/-- `t` is reached from `s` by steps. -/
inductive Reaches (s : State) : State → Prop where
  | refl : Reaches s s
  | step {t u : State} : Reaches s t → Sys2Proof.Machine.step t = .next u → Reaches s u

/-- A state from which no run ends at a fault. -/
def State.safe (s : State) : Prop := ∀ t, Reaches s t → ¬ t.endedAtFault

/-- What holds of every state a host can build with a legal launch and every state steps reach from it: x0's cell is 0
(spec/10_state.md R101, R162), the capacity is one the spec admits (R201), and memory and the CSR file are in canonical form
within their address ranges (R120, R201). -/
def State.Inv (s : State) : Prop :=
  s.x[0] = 0 ∧ s.capacity ≤ maxCapacity ∧ Memory.wf s.capacity s.mem = true ∧ CsrFile.wf s.csr = true

end Sys2Proof.Machine
end

