-- ==== Sys2Proof/Certificates/Slice0/Obligations.lean ====
section
/-! DEFINITION. The statements for the provers. Those about instructions come from the rules of spec/40 to spec/49: for every
word of the instruction's row of spec/opcode_table.json, what it decodes to, its fields read by arithmetic on the word (R12)
and not by the decoder's own functions; and for every state and all operands, the next state `exec` answers: the values the
rule gives, and that everything else is as before. Addition and subtraction modulo 2^32 are the spec's decision D6. -/

namespace Sys2Proof.Claims

open Sys2Proof.Machine

/-! ### Fields of a word by arithmetic (spec/00_scope.md R12, spec/30_encoding.md R310 to R318) -/

/-- `w[hi:lo]` as an unsigned number. -/
def bits (w : Word) (hi lo : Nat) : Nat := w.toNat / 2 ^ lo % 2 ^ (hi - lo + 1)

/-- The register field whose lowest bit is `lo`. -/
def regAt (w : Word) (lo : Nat) : Reg := Fin.ofNat 32 (bits w (lo + 4) lo)

/-- inst[31:20]. -/
def immIAt (w : Word) : BitVec 12 := BitVec.ofNat 12 (bits w 31 20)

/-- The S immediate: inst[31:25] above inst[11:7]. -/
def immSAt (w : Word) : BitVec 12 := BitVec.ofNat 12 (bits w 31 25 * 2 ^ 5 + bits w 11 7)

/-- The B immediate: bit 12 from 31, bit 11 from 7, bits 10:5 from 30:25, bits 4:1 from 11:8. -/
def immBAt (w : Word) : BitVec 13 :=
  BitVec.ofNat 13 (bits w 31 31 * 2 ^ 12 + bits w 7 7 * 2 ^ 11 + bits w 30 25 * 2 ^ 5 + bits w 11 8 * 2)

/-- The J immediate: bit 20 from 31, bits 19:12 from 19:12, bit 11 from 20, bits 10:1 from 30:21. -/
def immJAt (w : Word) : BitVec 21 :=
  BitVec.ofNat 21 (bits w 31 31 * 2 ^ 20 + bits w 19 12 * 2 ^ 12 + bits w 20 20 * 2 ^ 11 + bits w 30 21 * 2)

/-- inst[31:12]. -/
def imm20At (w : Word) : BitVec 20 := BitVec.ofNat 20 (bits w 31 12)

/-- The 5-bit field whose lowest bit is `lo`: a shift amount or a zimm. -/
def fiveAt (w : Word) (lo : Nat) : BitVec 5 := BitVec.ofNat 5 (bits w (lo + 4) lo)

/-- inst[31:20] as a CSR address. -/
def csrAt (w : Word) : CsrAddr := BitVec.ofNat 12 (bits w 31 20)

/-- Every word of a row of the opcode table decodes to the instruction built from its fields. -/
def Row (mask value : Word) (build : Word → Instr) : Prop := ∀ w : Word, w &&& mask = value → decode w = .ok (build w)

/-! ### What a step changes and what it leaves -/

/-- x[rd] reads `v` (0 if rd is x0, where the write is discarded) and every other register reads as before. -/
def WritesReg (s t : State) (rd : Reg) (v : Word) : Prop :=
  t.readReg rd = (if rd = 0 then 0 else v) ∧ ∀ r, r ≠ rd → t.readReg r = s.readReg r

def SameRegs (s t : State) : Prop := ∀ r, t.readReg r = s.readReg r

def SameCsrs (s t : State) : Prop := ∀ a, t.readCsr a = s.readCsr a

def SameMem (s t : State) : Prop := ∀ a, t.readByte a = s.readByte a

/-- The run state, the trace flag, the capacity and the trace output are as before. -/
def SameRest (s t : State) : Prop :=
  t.run = s.run ∧ t.trace = s.trace ∧ t.capacity = s.capacity ∧ t.traceOut = s.traceOut

/-- `t` is `s` with x[rd] written and the pc at `npc`. -/
def RegisterStep (s t : State) (rd : Reg) (v npc : Word) : Prop :=
  WritesReg s t rd v ∧ SameCsrs s t ∧ SameMem s t ∧ SameRest s t ∧ t.pc = npc

/-- `t` is `s` with the pc at `npc`. -/
def PcStep (s t : State) (npc : Word) : Prop :=
  SameRegs s t ∧ SameCsrs s t ∧ SameMem s t ∧ SameRest s t ∧ t.pc = npc

/-- The instruction completes: x[rd] gets `v`, the pc goes to pc + 4, nothing else changes. -/
def Writes (i : Instr) (s : State) (rd : Reg) (v : Word) : Prop :=
  ∃ t, exec i s = .next t ∧ RegisterStep s t rd v (s.pc + 4)

/-- The instruction completes: the pc goes to `npc`, nothing else changes. -/
def GoesTo (i : Instr) (s : State) (npc : Word) : Prop := ∃ t, exec i s = .next t ∧ PcStep s t npc

/-- The CSR instruction completes: x[rd] gets the old value, csr[a] reads `new`, every other CSR, memory and the rest are as
before, the pc goes to pc + 4. -/
def CsrStep (i : Instr) (s : State) (rd : Reg) (a : CsrAddr) (new : Word) : Prop :=
  ∃ t, exec i s = .next t ∧ WritesReg s t rd (s.readCsr a) ∧ t.readCsr a = new ∧
    (∀ b, b ≠ a → t.readCsr b = s.readCsr b) ∧ SameMem s t ∧ SameRest s t ∧ t.pc = s.pc + 4

/-- The store completes: the `n` bytes from address `ea` on are the low bytes of `v`, lowest first; every byte outside them,
every register, every CSR and the rest are as before; the pc goes to pc + 4. -/
def StoreStep (i : Instr) (s : State) (ea v : Word) (n : Nat) : Prop :=
  ∃ t, exec i s = .next t ∧
    (∀ k, k < n → (t.readByte (ea.toNat + k)).toNat = v.toNat / 2 ^ (8 * k) % 256) ∧
    (∀ a, a < ea.toNat ∨ ea.toNat + n ≤ a → t.readByte a = s.readByte a) ∧
    SameRegs s t ∧ SameCsrs s t ∧ SameRest s t ∧ t.pc = s.pc + 4

/-- The instruction halts with `r`: the next state is `s` with only the run state changed. -/
def HaltsWith (i : Instr) (s : State) (r : HaltReason) : Prop := exec i s = .next { s with run := .halted r }

/-- An access of `n` bytes at `ea` is aligned and within the capacity, as integers (spec/20_memory.md R211, R212). -/
def AccessOk (s : State) (ea : Word) (n : Nat) : Prop := ea.toNat % n = 0 ∧ ea.toNat + n ≤ s.capacity

/-- How the two checks stop instruction `i`, alignment first (R211, R720). -/
def AccessHalts (i : Instr) (s : State) (ea : Word) (n : Nat) : Prop :=
  (ea.toNat % n ≠ 0 → HaltsWith i s (.misaligned ea n)) ∧
  (ea.toNat % n = 0 → s.capacity < ea.toNat + n → HaltsWith i s (.outOfRange ea n s.capacity))

/-! ### Values by arithmetic -/

/-- The sum of a u32 and a sign-extended immediate, modulo 2^32. -/
def plusImm {n : Nat} (a : Word) (imm : BitVec n) : Word := BitVec.ofInt 32 (a.toInt + imm.toInt)

/-- `sext_32` of a narrower value. -/
def sextVal {n : Nat} (imm : BitVec n) : Word := BitVec.ofInt 32 imm.toInt

/-- 1 when the proposition holds and 0 otherwise. -/
def oneIf (p : Prop) [Decidable p] : Word := if p then 1 else 0

/-- The little-endian number in the `n` bytes from address `a` on (spec/20_memory.md R213). -/
def leNat (s : State) (a : Nat) : Nat → Nat
  | 0 => 0
  | n + 1 => (s.readByte a).toNat + 256 * leNat s (a + 1) n

/-- A number of `n` bits, sign-extended to 32. -/
def signed (n v : Nat) : Word := BitVec.ofInt 32 (if v < 2 ^ (n - 1) then (v : Int) else (v : Int) - 2 ^ n)

/-- The word at the pc (spec/20_memory.md R221). -/
def wordAtPc (s : State) : Word := BitVec.ofNat 32 (leNat s s.pc.toNat 4)

/-- The halt reason of a data access of `n` bytes at `ea`, if any, alignment before bounds (R211). -/
def accessHalt (s : State) (ea : Word) (n : Nat) : Option HaltReason :=
  if ea.toNat % n ≠ 0 then some (.misaligned ea n)
  else if s.capacity < ea.toNat + n then some (.outOfRange ea n s.capacity)
  else none

/-- The halt reason of an instruction, if any (spec/60_exceptions.md R700, R720). -/
def instrHalt (s : State) : Instr → Option HaltReason
  | .ecall => some .environmentCall
  | .ebreak => some .breakpoint
  | .lb _ imm rs1 | .lbu _ imm rs1 => accessHalt s (plusImm (s.readReg rs1) imm) 1
  | .lh _ imm rs1 | .lhu _ imm rs1 => accessHalt s (plusImm (s.readReg rs1) imm) 2
  | .lw _ imm rs1 => accessHalt s (plusImm (s.readReg rs1) imm) 4
  | .sb _ imm rs1 => accessHalt s (plusImm (s.readReg rs1) imm) 1
  | .sh _ imm rs1 => accessHalt s (plusImm (s.readReg rs1) imm) 2
  | .sw _ imm rs1 => accessHalt s (plusImm (s.readReg rs1) imm) 4
  | _ => none

/-- The reason of the first check of a step that fails, if any (R720). -/
def expectedHalt (s : State) : Option HaltReason :=
  if s.pc.toNat % 4 ≠ 0 then some (.misaligned s.pc 4)
  else if s.capacity < s.pc.toNat + 4 then some (.outOfRange s.pc 4 s.capacity)
  else match decode (wordAtPc s) with
    | .error _ => some (.illegalInstruction s.pc (wordAtPc s))
    | .ok i => instrHalt s i

/-- A state without its trace flag and trace output. -/
def untraced (s : State) : State := { s with trace := false, traceOut := [] }

end Sys2Proof.Claims

open Sys2Proof Sys2Proof.Machine Sys2Proof.Claims

/-- Words written out in the spec decode to the instructions they stand for. One word of the spec for each family (and
each scattered-immediate format) decodes to the instruction, with its operands, that the spec writes beside it. The
immediates' bit positions are the spec's general knowledge (G2, G3, log entry 21). From spec/30_encoding.md section 3,
spec/95_test_vectors.md sections 1 and 2, spec/93_implementation_defined.md G2, G3. -/
def Obligations.SpecWordsDecode : Prop :=
  decode 0x00000073#32 = .ok .ecall ∧ decode 0x00100073#32 = .ok .ebreak ∧
  decode 0x340312F3#32 = .ok (.csrrw 5 0x340#12 6) ∧ decode 0x340FD2F3#32 = .ok (.csrrwi 5 0x340#12 31#5) ∧
  decode 0x0FF0000F#32 = .ok (.fence 0x0FF#12 0 0#3 0) ∧ decode 0x0000100F#32 = .ok (.fenceI 0#12 0 0) ∧
  decode 0xFFF10093#32 = .ok (.addi 1 2 0xFFF#12) ∧ decode 0x40415093#32 = .ok (.srai 1 2 4#5) ∧
  decode 0xFFF50283#32 = .ok (.lb 5 0xFFF#12 10) ∧ decode 0xFE651F23#32 = .ok (.sh 6 0xFFE#12 10) ∧
  decode 0x001000EF#32 = .ok (.jal 1 2048#21) ∧ decode 0x004280E7#32 = .ok (.jalr 1 4#12 5) ∧
  decode 0xFFFFF2B7#32 = .ok (.lui 5 0xFFFFF#20) ∧ decode 0xFE2098E3#32 = .ok (.bne 1 2 0x1FF0#13) ∧
  decode 0x402081B3#32 = .ok (.sub 3 1 2)

/-- Decoding the word of a well-formed instruction gives the instruction back. For every well-formed instruction, with
every operand at every value its encoding admits, decode (encode i) is i: no bit of an encoding is dropped. The
immediates' bit positions are the spec's general knowledge (G2, G3, log entry 21), and which words of opcodes 0x73 and
0x0F are instructions is decisions D7 and D21 (log entries 11 and 12). From spec/30_encoding.md sections 1 to 3,
spec/93_implementation_defined.md G2, G3, spec/92_eei_decisions.md D7, D21. -/
def Obligations.DecodeOfEncode : Prop :=
  ∀ i : Instr, i.wf = true → decode (encode i) = .ok i

/-- A word that decodes is the word of the instruction it decodes to. Every word the decoder accepts gives a well-formed
instruction whose encoding is that word: each legal word has one meaning, the bits decode ignores included (the model
keeps them in the fence instructions). The immediates' bit positions are the spec's general knowledge (G2, G3, log
entry 21), and which words of opcodes 0x73 and 0x0F are instructions is decisions D7 and D21 (log entries 11 and 12).
From spec/30_encoding.md sections 1 to 3, spec/93_implementation_defined.md G2, G3, spec/92_eei_decisions.md D7, D21. -/
def Obligations.EncodeOfDecode : Prop :=
  ∀ (w : Word) (i : Instr), decode w = .ok i → i.wf = true ∧ encode i = w

/-- The decoder rejects exactly the words of the illegal-space table. A word is rejected if and only if the table of
illegal words lists it: an opcode outside the map, or a funct3 or funct7 its group has no instruction for, or an
opcode-0x73 funct3-0 word that is neither of the two whole words. That no other opcode-0x73 funct3-0 word is an
instruction is decision D7 (log entry 11), and that no opcode-0x0F word is rejected is D21 (log entry 12). From
spec/30_encoding.md section 4 (the illegal space, derived there from the dispatch), spec/92_eei_decisions.md D7, D21. -/
def Obligations.IllegalWordsAreThoseOfTheTable : Prop :=
  ∀ w : Word, (∃ e, decode w = .error e) ↔
    (let op := bits w 6 0
     let f3 := bits w 14 12
     let f7 := bits w 31 25
     op ∉ [0x03, 0x0F, 0x13, 0x17, 0x23, 0x33, 0x37, 0x63, 0x67, 0x6F, 0x73] ∨
     (op = 0x73 ∧ (f3 = 4 ∨ (f3 = 0 ∧ w ≠ 0x00000073#32 ∧ w ≠ 0x00100073#32))) ∨
     (op = 0x13 ∧ ((f3 = 1 ∧ f7 ≠ 0) ∨ (f3 = 5 ∧ f7 ≠ 0 ∧ f7 ≠ 0x20))) ∨
     (op = 0x03 ∧ (f3 = 3 ∨ f3 = 6 ∨ f3 = 7)) ∨
     (op = 0x23 ∧ 3 ≤ f3) ∨
     (op = 0x67 ∧ f3 ≠ 0) ∨
     (op = 0x63 ∧ (f3 = 2 ∨ f3 = 3)) ∨
     (op = 0x33 ∧ ((f7 ≠ 0 ∧ f7 ≠ 0x20) ∨ (f7 = 0x20 ∧ f3 ≠ 0 ∧ f3 ≠ 5))))

/-- ECALL and EBREAK halt with EnvironmentCall and Breakpoint and commit nothing. In every state ECALL leaves the state
with only the run state changed to Halted(EnvironmentCall), and EBREAK to Halted(Breakpoint). That only the two whole
words encode them is decision D7, and that the pc stays at the instruction is decision D8, both the spec's own
choices. From spec/40_system.md, spec/92_eei_decisions.md D7, D8. -/
def Obligations.EcallAndEbreakHalt : Prop :=
  (∀ w : Word, decode w = .ok .ecall ↔ w = 0x00000073#32) ∧ (∀ w : Word, decode w = .ok .ebreak ↔ w = 0x00100073#32) ∧
  ∀ s : State, HaltsWith .ecall s .environmentCall ∧ HaltsWith .ebreak s .breakpoint

/-- CSRRW and CSRRWI: rd gets the old CSR value, the CSR the source. Every word of the two rows decodes to its fields. In
every state whose CSR file is in canonical form (an invariant, stated as StepKeepsInv), CSRRW puts the old CSR value
in rd (discarded for x0) and x[rs1], read before the write, in the CSR, and CSRRWI the zero-extended 5-bit immediate;
no other register, CSR, byte of memory or other state changes and the pc goes to pc + 4 (modulo 2^32, decision D6, log
entry 10). That the source is read before rd is written is decision D9 (log entry 13), and that every address is
accepted is D12 (log entry 14). From spec/41_csr.md CSRRW, CSRRWI and the common protocol, spec/92_eei_decisions.md
D6, D9, D12. -/
def Obligations.CsrWriteInstructions : Prop :=
  Row 0x0000707F#32 0x00001073#32 (fun w => .csrrw (regAt w 7) (csrAt w) (regAt w 15)) ∧
  Row 0x0000707F#32 0x00005073#32 (fun w => .csrrwi (regAt w 7) (csrAt w) (fiveAt w 15)) ∧
  ∀ (s : State) (rd : Reg) (a : CsrAddr), CsrFile.wf s.csr = true →
    (∀ rs1 : Reg, CsrStep (.csrrw rd a rs1) s rd a (s.readReg rs1)) ∧
    (∀ zimm : BitVec 5, CsrStep (.csrrwi rd a zimm) s rd a (BitVec.ofNat 32 zimm.toNat))

/-- CSRRS and CSRRSI: rd gets the old CSR value, the CSR old OR source. Every word of the two rows decodes to its fields.
In every state whose CSR file is in canonical form, CSRRS and CSRRSI put the old CSR value in rd and old OR source
(x[rs1], or the zero-extended immediate) in the CSR, so that a zero source leaves it unchanged; nothing else changes
and the pc goes to pc + 4 (modulo 2^32, decision D6, log entry 10). That the source is read before rd is written is
decision D9 (log entry 13), and that every address is accepted is D12 (log entry 14). From spec/41_csr.md CSRRS,
CSRRSI and the common protocol, spec/92_eei_decisions.md D6, D9, D12. -/
def Obligations.CsrSetInstructions : Prop :=
  Row 0x0000707F#32 0x00002073#32 (fun w => .csrrs (regAt w 7) (csrAt w) (regAt w 15)) ∧
  Row 0x0000707F#32 0x00006073#32 (fun w => .csrrsi (regAt w 7) (csrAt w) (fiveAt w 15)) ∧
  ∀ (s : State) (rd : Reg) (a : CsrAddr), CsrFile.wf s.csr = true →
    (∀ rs1 : Reg, CsrStep (.csrrs rd a rs1) s rd a (s.readCsr a ||| s.readReg rs1)) ∧
    (∀ zimm : BitVec 5, CsrStep (.csrrsi rd a zimm) s rd a (s.readCsr a ||| BitVec.ofNat 32 zimm.toNat))

/-- CSRRC and CSRRCI: rd gets the old CSR value, the CSR old AND NOT source. Every word of the two rows decodes to its
fields. In every state whose CSR file is in canonical form, CSRRC and CSRRCI put the old CSR value in rd and old AND
the complement of the source in the CSR, so that a zero source leaves it unchanged; nothing else changes and the pc
goes to pc + 4 (modulo 2^32, decision D6, log entry 10). That the source is read before rd is written is decision D9
(log entry 13), and that every address is accepted is D12 (log entry 14). From spec/41_csr.md CSRRC, CSRRCI and the
common protocol, spec/92_eei_decisions.md D6, D9, D12. -/
def Obligations.CsrClearInstructions : Prop :=
  Row 0x0000707F#32 0x00003073#32 (fun w => .csrrc (regAt w 7) (csrAt w) (regAt w 15)) ∧
  Row 0x0000707F#32 0x00007073#32 (fun w => .csrrci (regAt w 7) (csrAt w) (fiveAt w 15)) ∧
  ∀ (s : State) (rd : Reg) (a : CsrAddr), CsrFile.wf s.csr = true →
    (∀ rs1 : Reg, CsrStep (.csrrc rd a rs1) s rd a (s.readCsr a &&& ~~~(s.readReg rs1))) ∧
    (∀ zimm : BitVec 5, CsrStep (.csrrci rd a zimm) s rd a (s.readCsr a &&& ~~~(BitVec.ofNat 32 zimm.toNat)))

/-- Every opcode-0x0F word is FENCE or FENCE.I, and both only advance the pc. Every word of opcode 0x0F decodes to FENCE.I
if its funct3 is 1 and to FENCE otherwise, whatever its other bits hold (decision D21, with D15's label, the spec's
own choices), and each only moves the pc to pc + 4. That pc + 4 is modulo 2^32 is decision D6 (log entry 10). From
spec/42_fence.md, spec/92_eei_decisions.md D6, D15, D21. -/
def Obligations.FencesOnlyAdvance : Prop :=
  Row 0x0000707F#32 0x0000100F#32 (fun w => .fenceI (immIAt w) (regAt w 15) (regAt w 7)) ∧
  (∀ w : Word, w &&& 0x0000007F#32 = 0x0000000F#32 → bits w 14 12 ≠ 1 →
    decode w = .ok (.fence (immIAt w) (regAt w 15) (BitVec.ofNat 3 (bits w 14 12)) (regAt w 7))) ∧
  ∀ (s : State) (hi : BitVec 12) (rs1 rd : Reg) (f3 : BitVec 3),
    GoesTo (.fence hi rs1 f3 rd) s (s.pc + 4) ∧ GoesTo (.fenceI hi rs1 rd) s (s.pc + 4)

/-- ADDI, ADD and SUB write the sum or difference modulo 2^32. Every word of the three rows decodes to its fields. In
every state, for all operands, ADDI writes x[rs1] plus the sign-extended immediate, ADD the sum and SUB the difference
of x[rs1] and x[rs2], each modulo 2^32, to rd (discarded for x0), the pc goes to pc + 4 and nothing else changes. The
operations are the spec's general knowledge (G4) and the wrap is decision D6. The position of the 12-bit immediate is
the spec's general knowledge (G2, log entry 21). From spec/43_alu_imm.md ADDI, spec/49_alu_reg.md ADD, SUB,
spec/93_implementation_defined.md G2, G4, spec/92_eei_decisions.md D6. -/
def Obligations.AddAndSubtract : Prop :=
  Row 0x0000707F#32 0x00000013#32 (fun w => .addi (regAt w 7) (regAt w 15) (immIAt w)) ∧
  Row 0xFE00707F#32 0x00000033#32 (fun w => .add (regAt w 7) (regAt w 15) (regAt w 20)) ∧
  Row 0xFE00707F#32 0x40000033#32 (fun w => .sub (regAt w 7) (regAt w 15) (regAt w 20)) ∧
  ∀ (s : State) (rd rs1 : Reg),
    (∀ imm : BitVec 12, Writes (.addi rd rs1 imm) s rd (plusImm (s.readReg rs1) imm)) ∧
    (∀ rs2 : Reg, Writes (.add rd rs1 rs2) s rd (BitVec.ofNat 32 ((s.readReg rs1).toNat + (s.readReg rs2).toNat))) ∧
    (∀ rs2 : Reg, Writes (.sub rd rs1 rs2) s rd (BitVec.ofInt 32 ((s.readReg rs1).toInt - (s.readReg rs2).toInt)))

/-- XORI, ORI, ANDI, XOR, OR and AND work bit by bit. Every word of the six rows decodes to its fields. In every state,
for all operands, the instruction writes to rd the bitwise exclusive or, or, or and of x[rs1] with the sign-extended
immediate or with x[rs2], the pc goes to pc + 4 and nothing else changes. The operations are the spec's general
knowledge (G4). The position of the 12-bit immediate is the spec's general knowledge (G2, log entry 21). That pc + 4
is modulo 2^32 is decision D6 (log entry 10). From spec/43_alu_imm.md XORI, ORI, ANDI, spec/49_alu_reg.md XOR, OR,
AND, spec/93_implementation_defined.md G2, G4, spec/92_eei_decisions.md D6. -/
def Obligations.BitwiseLogic : Prop :=
  Row 0x0000707F#32 0x00004013#32 (fun w => .xori (regAt w 7) (regAt w 15) (immIAt w)) ∧
  Row 0x0000707F#32 0x00006013#32 (fun w => .ori (regAt w 7) (regAt w 15) (immIAt w)) ∧
  Row 0x0000707F#32 0x00007013#32 (fun w => .andi (regAt w 7) (regAt w 15) (immIAt w)) ∧
  Row 0xFE00707F#32 0x00004033#32 (fun w => .xor (regAt w 7) (regAt w 15) (regAt w 20)) ∧
  Row 0xFE00707F#32 0x00006033#32 (fun w => .or (regAt w 7) (regAt w 15) (regAt w 20)) ∧
  Row 0xFE00707F#32 0x00007033#32 (fun w => .and (regAt w 7) (regAt w 15) (regAt w 20)) ∧
  ∀ (s : State) (rd rs1 : Reg),
    (∀ imm : BitVec 12,
      Writes (.xori rd rs1 imm) s rd (BitVec.ofNat 32 ((s.readReg rs1).toNat ^^^ (sextVal imm).toNat)) ∧
      Writes (.ori rd rs1 imm) s rd (BitVec.ofNat 32 ((s.readReg rs1).toNat ||| (sextVal imm).toNat)) ∧
      Writes (.andi rd rs1 imm) s rd (BitVec.ofNat 32 ((s.readReg rs1).toNat &&& (sextVal imm).toNat))) ∧
    (∀ rs2 : Reg,
      Writes (.xor rd rs1 rs2) s rd (BitVec.ofNat 32 ((s.readReg rs1).toNat ^^^ (s.readReg rs2).toNat)) ∧
      Writes (.or rd rs1 rs2) s rd (BitVec.ofNat 32 ((s.readReg rs1).toNat ||| (s.readReg rs2).toNat)) ∧
      Writes (.and rd rs1 rs2) s rd (BitVec.ofNat 32 ((s.readReg rs1).toNat &&& (s.readReg rs2).toNat)))

/-- SLLI, SRLI and SRAI multiply or divide by 2^shamt. Every word of the three rows decodes to its fields. In every state,
for all operands, SLLI writes x[rs1] times 2^shamt modulo 2^32, SRLI the quotient of the unsigned and SRAI the
rounded-down quotient of the signed reading of x[rs1] by 2^shamt; the pc goes to pc + 4 and nothing else changes. The
zero and sign fill are the spec's general knowledge (G4). That pc + 4 is modulo 2^32 is decision D6 (log entry 10).
From spec/43_alu_imm.md SLLI, SRLI, SRAI, spec/93_implementation_defined.md G4, spec/92_eei_decisions.md D6. -/
def Obligations.ShiftsByAConstant : Prop :=
  Row 0xFE00707F#32 0x00001013#32 (fun w => .slli (regAt w 7) (regAt w 15) (fiveAt w 20)) ∧
  Row 0xFE00707F#32 0x00005013#32 (fun w => .srli (regAt w 7) (regAt w 15) (fiveAt w 20)) ∧
  Row 0xFE00707F#32 0x40005013#32 (fun w => .srai (regAt w 7) (regAt w 15) (fiveAt w 20)) ∧
  ∀ (s : State) (rd rs1 : Reg) (n : BitVec 5),
    Writes (.slli rd rs1 n) s rd (BitVec.ofNat 32 ((s.readReg rs1).toNat * 2 ^ n.toNat)) ∧
    Writes (.srli rd rs1 n) s rd (BitVec.ofNat 32 ((s.readReg rs1).toNat / 2 ^ n.toNat)) ∧
    Writes (.srai rd rs1 n) s rd (BitVec.ofInt 32 ((s.readReg rs1).toInt / 2 ^ n.toNat))

/-- SLL, SRL and SRA shift by the low 5 bits of x[rs2]. As for the shifts by a constant, with the amount x[rs2] modulo 32.
That amount is decision D13, the spec's own choice (log entry 9). That pc + 4 is modulo 2^32 is decision D6 (log entry
10). From spec/49_alu_reg.md SLL, SRL, SRA, spec/92_eei_decisions.md D6, D13, spec/93_implementation_defined.md G4,
G5. -/
def Obligations.ShiftsByARegister : Prop :=
  Row 0xFE00707F#32 0x00001033#32 (fun w => .sll (regAt w 7) (regAt w 15) (regAt w 20)) ∧
  Row 0xFE00707F#32 0x00005033#32 (fun w => .srl (regAt w 7) (regAt w 15) (regAt w 20)) ∧
  Row 0xFE00707F#32 0x40005033#32 (fun w => .sra (regAt w 7) (regAt w 15) (regAt w 20)) ∧
  ∀ (s : State) (rd rs1 rs2 : Reg),
    Writes (.sll rd rs1 rs2) s rd (BitVec.ofNat 32 ((s.readReg rs1).toNat * 2 ^ ((s.readReg rs2).toNat % 32))) ∧
    Writes (.srl rd rs1 rs2) s rd (BitVec.ofNat 32 ((s.readReg rs1).toNat / 2 ^ ((s.readReg rs2).toNat % 32))) ∧
    Writes (.sra rd rs1 rs2) s rd (BitVec.ofInt 32 ((s.readReg rs1).toInt / 2 ^ ((s.readReg rs2).toNat % 32)))

/-- SLTI and SLT compare signed, SLTIU and SLTU unsigned, and write 1 or 0. Every word of the four rows decodes to its
fields. In every state, for all operands, the instruction writes 1 to rd if x[rs1] is less than the sign-extended
immediate or x[rs2], as signed numbers (SLTI, SLT) or as unsigned ones (SLTIU, SLTU), and 0 otherwise; the pc goes to
pc + 4 and nothing else changes. The orders of SLT and SLTU are the spec's general knowledge. The position of the
12-bit immediate is the spec's general knowledge (G2, log entry 21). That pc + 4 is modulo 2^32 is decision D6 (log
entry 10). From spec/43_alu_imm.md SLTI, SLTIU, spec/49_alu_reg.md SLT, SLTU, spec/90_conflicts.md C2,
spec/93_implementation_defined.md G2, G4, spec/92_eei_decisions.md D6. -/
def Obligations.SetIfLessThan : Prop :=
  Row 0x0000707F#32 0x00002013#32 (fun w => .slti (regAt w 7) (regAt w 15) (immIAt w)) ∧
  Row 0x0000707F#32 0x00003013#32 (fun w => .sltiu (regAt w 7) (regAt w 15) (immIAt w)) ∧
  Row 0xFE00707F#32 0x00002033#32 (fun w => .slt (regAt w 7) (regAt w 15) (regAt w 20)) ∧
  Row 0xFE00707F#32 0x00003033#32 (fun w => .sltu (regAt w 7) (regAt w 15) (regAt w 20)) ∧
  ∀ (s : State) (rd rs1 : Reg),
    (∀ imm : BitVec 12,
      Writes (.slti rd rs1 imm) s rd (oneIf ((s.readReg rs1).toInt < imm.toInt)) ∧
      Writes (.sltiu rd rs1 imm) s rd (oneIf ((s.readReg rs1).toNat < (sextVal imm).toNat))) ∧
    (∀ rs2 : Reg,
      Writes (.slt rd rs1 rs2) s rd (oneIf ((s.readReg rs1).toInt < (s.readReg rs2).toInt)) ∧
      Writes (.sltu rd rs1 rs2) s rd (oneIf ((s.readReg rs1).toNat < (s.readReg rs2).toNat)))

/-- The effective address is x[rs1] plus the sign-extended 12-bit immediate, modulo 2^32. In every state, for every base
register and immediate, the address loads and stores use is the sum of x[rs1] and the signed immediate, modulo 2^32
(decision D6). From spec/44_loads.md, common to the group, spec/45_stores.md, common to the group,
spec/92_eei_decisions.md D6. -/
def Obligations.EffectiveAddressOfLoadsAndStores : Prop :=
  ∀ (s : State) (rs1 : Reg) (imm : BitVec 12),
    ((s.effectiveAddress rs1 (immI imm)).toNat : Int) = (((s.readReg rs1).toNat : Int) + imm.toInt) % 2 ^ 32 ∧
    ((s.effectiveAddress rs1 (immS imm)).toNat : Int) = (((s.readReg rs1).toNat : Int) + imm.toInt) % 2 ^ 32

/-- LB and LBU write the byte at ea, sign- or zero-extended, or halt OutOfRange. Every word of the two rows decodes to its
fields. The effective address ea is x[rs1] plus the sign-extended imm_i modulo 2^32 (decision D6). When ea + 1 is at
most the capacity, LB writes the sign-extended and LBU the zero-extended byte at ea to rd (discarded for x0), the pc
goes to pc + 4 and nothing else changes. When ea + 1 exceeds the capacity both halt with OutOfRange(ea, 1,
MEM_CAPACITY), only the run state changing (that the pc stays is decision D8). A byte load is never Misaligned. The
position of the 12-bit immediate is the spec's general knowledge (G2, log entry 21). That the bound is compared as
integers is decision D5 (log entry 10). From spec/44_loads.md LB, LBU, spec/92_eei_decisions.md D5, D6, D8,
spec/93_implementation_defined.md G2. -/
def Obligations.ByteLoads : Prop :=
  Row 0x0000707F#32 0x00000003#32 (fun w => .lb (regAt w 7) (immIAt w) (regAt w 15)) ∧
  Row 0x0000707F#32 0x00004003#32 (fun w => .lbu (regAt w 7) (immIAt w) (regAt w 15)) ∧
  ∀ (s : State) (rd rs1 : Reg) (imm : BitVec 12),
    let ea := s.effectiveAddress rs1 (immI imm)
    ea = plusImm (s.readReg rs1) imm ∧
    (ea.toNat + 1 ≤ s.capacity →
      Writes (.lb rd imm rs1) s rd (signed 8 (leNat s ea.toNat 1)) ∧
      Writes (.lbu rd imm rs1) s rd (BitVec.ofNat 32 (leNat s ea.toNat 1))) ∧
    (s.capacity < ea.toNat + 1 →
      HaltsWith (.lb rd imm rs1) s (.outOfRange ea 1 s.capacity) ∧
      HaltsWith (.lbu rd imm rs1) s (.outOfRange ea 1 s.capacity))

/-- LH and LHU write the little-endian halfword at ea, sign- or zero-extended, or halt. Every word of the two rows decodes
to its fields. The effective address ea is x[rs1] plus the sign-extended imm_i modulo 2^32 (decision D6). When ea is
even and ea + 2 at most the capacity, LH writes the sign-extended and LHU the zero-extended little-endian halfword at
ea to rd (discarded for x0), the pc goes to pc + 4 and nothing else changes. An odd ea halts with Misaligned(ea, 2),
checked first; an even one past the capacity with OutOfRange(ea, 2, MEM_CAPACITY); only the run state changes (that
the pc stays is decision D8). The position of the 12-bit immediate is the spec's general knowledge (G2, log entry 21).
That the bound is compared as integers is decision D5 (log entry 10). From spec/44_loads.md LH, LHU,
spec/92_eei_decisions.md D5, D6, D8, spec/93_implementation_defined.md G2. -/
def Obligations.HalfwordLoads : Prop :=
  Row 0x0000707F#32 0x00001003#32 (fun w => .lh (regAt w 7) (immIAt w) (regAt w 15)) ∧
  Row 0x0000707F#32 0x00005003#32 (fun w => .lhu (regAt w 7) (immIAt w) (regAt w 15)) ∧
  ∀ (s : State) (rd rs1 : Reg) (imm : BitVec 12),
    let ea := s.effectiveAddress rs1 (immI imm)
    ea = plusImm (s.readReg rs1) imm ∧
    (AccessOk s ea 2 →
      Writes (.lh rd imm rs1) s rd (signed 16 (leNat s ea.toNat 2)) ∧
      Writes (.lhu rd imm rs1) s rd (BitVec.ofNat 32 (leNat s ea.toNat 2))) ∧
    AccessHalts (.lh rd imm rs1) s ea 2 ∧ AccessHalts (.lhu rd imm rs1) s ea 2

/-- LW writes the little-endian word at ea, or halts. Every word of the row decodes to its fields. The effective address
ea is x[rs1] plus the sign-extended imm_i modulo 2^32 (decision D6). When ea is a multiple of 4 and ea + 4 at most the
capacity, LW writes the little-endian word at ea to rd (discarded for x0), the pc goes to pc + 4 and nothing else
changes. Another ea halts with Misaligned(ea, 4), checked first, or OutOfRange(ea, 4, MEM_CAPACITY); only the run
state changes (that the pc stays is decision D8). The position of the 12-bit immediate is the spec's general knowledge
(G2, log entry 21). That the bound is compared as integers is decision D5 (log entry 10). From spec/44_loads.md LW,
spec/92_eei_decisions.md D5, D6, D8, spec/93_implementation_defined.md G2. -/
def Obligations.WordLoad : Prop :=
  Row 0x0000707F#32 0x00002003#32 (fun w => .lw (regAt w 7) (immIAt w) (regAt w 15)) ∧
  ∀ (s : State) (rd rs1 : Reg) (imm : BitVec 12),
    let ea := s.effectiveAddress rs1 (immI imm)
    ea = plusImm (s.readReg rs1) imm ∧
    (AccessOk s ea 4 → Writes (.lw rd imm rs1) s rd (BitVec.ofNat 32 (leNat s ea.toNat 4))) ∧
    AccessHalts (.lw rd imm rs1) s ea 4

/-- SB writes the low byte of x[rs2] at ea and no other byte, or halts OutOfRange. Every word of the row decodes to its
fields. The effective address ea is x[rs1] plus the sign-extended imm_s modulo 2^32 (decision D6). In every state
whose memory is in canonical form (an invariant, stated as StepKeepsInv), when ea + 1 is at most the capacity, SB
stores the low byte of x[rs2] at ea, every other byte, register and CSR stays and the pc goes to pc + 4. When ea + 1
exceeds the capacity it halts with OutOfRange(ea, 1, MEM_CAPACITY) and only the run state changes (that the pc stays
is decision D8). That the bound is compared as integers is decision D5 (log entry 10). From spec/45_stores.md SB,
spec/92_eei_decisions.md D5, D6, D8. -/
def Obligations.ByteStore : Prop :=
  Row 0x0000707F#32 0x00000023#32 (fun w => .sb (regAt w 20) (immSAt w) (regAt w 15)) ∧
  ∀ (s : State) (rs2 rs1 : Reg) (imm : BitVec 12), Memory.wf s.capacity s.mem = true →
    let ea := s.effectiveAddress rs1 (immS imm)
    ea = plusImm (s.readReg rs1) imm ∧
    (ea.toNat + 1 ≤ s.capacity → StoreStep (.sb rs2 imm rs1) s ea (s.readReg rs2) 1) ∧
    (s.capacity < ea.toNat + 1 → HaltsWith (.sb rs2 imm rs1) s (.outOfRange ea 1 s.capacity))

/-- SH writes the low two bytes of x[rs2] at ea, little-endian, or halts. Every word of the row decodes to its fields. The
effective address ea is x[rs1] plus the sign-extended imm_s modulo 2^32 (decision D6). In every state whose memory is
in canonical form, when ea is even and ea + 2 at most the capacity, SH stores bits 7:0 and 15:8 of x[rs2] at ea and ea
+ 1, every other byte, register and CSR stays and the pc goes to pc + 4. Another ea halts with Misaligned(ea, 2),
checked first, or OutOfRange(ea, 2, MEM_CAPACITY), writing neither byte; only the run state changes (that the pc stays
is decision D8). That the bound is compared as integers is decision D5 (log entry 10). From spec/45_stores.md SH,
spec/92_eei_decisions.md D5, D6, D8. -/
def Obligations.HalfwordStore : Prop :=
  Row 0x0000707F#32 0x00001023#32 (fun w => .sh (regAt w 20) (immSAt w) (regAt w 15)) ∧
  ∀ (s : State) (rs2 rs1 : Reg) (imm : BitVec 12), Memory.wf s.capacity s.mem = true →
    let ea := s.effectiveAddress rs1 (immS imm)
    ea = plusImm (s.readReg rs1) imm ∧
    (AccessOk s ea 2 → StoreStep (.sh rs2 imm rs1) s ea (s.readReg rs2) 2) ∧
    AccessHalts (.sh rs2 imm rs1) s ea 2

/-- SW writes the four bytes of x[rs2] at ea, little-endian, or halts. Every word of the row decodes to its fields. The
effective address ea is x[rs1] plus the sign-extended imm_s modulo 2^32 (decision D6). In every state whose memory is
in canonical form, when ea is a multiple of 4 and ea + 4 at most the capacity, SW stores the four bytes of x[rs2] from
ea on, lowest first, every other byte, register and CSR stays and the pc goes to pc + 4. Another ea halts with
Misaligned(ea, 4), checked first, or OutOfRange(ea, 4, MEM_CAPACITY), writing no byte; only the run state changes
(that the pc stays is decision D8). The round trip that the rule adds is StoredWordLoadsBack. That the bound is
compared as integers is decision D5 (log entry 10). From spec/45_stores.md SW, spec/92_eei_decisions.md D5, D6, D8. -/
def Obligations.WordStore : Prop :=
  Row 0x0000707F#32 0x00002023#32 (fun w => .sw (regAt w 20) (immSAt w) (regAt w 15)) ∧
  ∀ (s : State) (rs2 rs1 : Reg) (imm : BitVec 12), Memory.wf s.capacity s.mem = true →
    let ea := s.effectiveAddress rs1 (immS imm)
    ea = plusImm (s.readReg rs1) imm ∧
    (AccessOk s ea 4 → StoreStep (.sw rs2 imm rs1) s ea (s.readReg rs2) 4) ∧
    AccessHalts (.sw rs2 imm rs1) s ea 4

/-- A word stored and then loaded from the same address is the identical value. In every state whose memory is in
canonical form, for every aligned address within the capacity, SW completes, and an LW from the same address in the
state it leaves completes with the stored value in rd. From R243. -/
def Obligations.StoredWordLoadsBack : Prop :=
  ∀ (s : State) (rs2 rs1 rd rs1' : Reg) (imm imm' : BitVec 12), Memory.wf s.capacity s.mem = true →
    AccessOk s (s.effectiveAddress rs1 (immS imm)) 4 →
    s.effectiveAddress rs1' (immI imm') = s.effectiveAddress rs1 (immS imm) → rd ≠ 0 →
    ∃ t u, exec (.sw rs2 imm rs1) s = .next t ∧ exec (.lw rd imm' rs1') t = .next u ∧ u.readReg rd = s.readReg rs2

/-- A stored word is what the next fetch from its address reads, with no fence. In every state whose memory is in
canonical form, when SW stores to the aligned word at pc + 4, the fetch of the very next step reads the stored word (a
rule the spec derives). That pc + 4 is modulo 2^32 is decision D6 (log entry 10). That the bound is compared as
integers is decision D5 (log entry 10). From spec/20_memory.md section 6 (fetch coherence),
spec/70_reset_and_hazards.md section 3, spec/92_eei_decisions.md D5, D6. -/
def Obligations.StoredInstructionIsFetched : Prop :=
  ∀ (s : State) (rs2 rs1 : Reg) (imm : BitVec 12), Memory.wf s.capacity s.mem = true →
    AccessOk s (s.effectiveAddress rs1 (immS imm)) 4 → s.effectiveAddress rs1 (immS imm) = s.pc + 4 →
    ∃ t, exec (.sw rs2 imm rs1) s = .next t ∧ t.fetch = .ok (s.readReg rs2)

/-- JAL writes pc + 4 to rd and goes to pc + imm_j, with no check of the target. Every word of opcode 0x6F decodes to JAL
with its scattered immediate put together (bit positions: the spec's general knowledge, G3, log entry 21). In every
state, for every rd and offset, JAL completes: rd gets pc + 4 (discarded for x0), the pc is pc plus the signed offset
modulo 2^32 (decision D6, log entry 10) whether or not that is aligned or in range, and nothing else changes. From
spec/46_jumps.md JAL, spec/30_encoding.md J-type, spec/93_implementation_defined.md G3, spec/92_eei_decisions.md D6. -/
def Obligations.JumpAndLink : Prop :=
  Row 0x0000007F#32 0x0000006F#32 (fun w => .jal (regAt w 7) (immJAt w)) ∧
  ∀ (s : State) (rd : Reg) (offset : BitVec 21),
    ∃ t, exec (.jal rd offset) s = .next t ∧ RegisterStep s t rd (s.pc + 4) (plusImm s.pc offset)

/-- JALR writes pc + 4 to rd and goes to x[rs1] + imm_i with bit 0 cleared. Every word of the row decodes to its fields.
In every state, for all operands, JALR completes: rd gets pc + 4 (discarded for x0), the pc is the even number at or
just below the old x[rs1] plus the signed immediate modulo 2^32 (decision D6, log entry 10) (rd = rs1 included:
decision D9), and nothing else changes. The position of the 12-bit immediate is the spec's general knowledge (G2, log
entry 21). From spec/46_jumps.md JALR, spec/92_eei_decisions.md D6, D9, spec/90_conflicts.md C5,
spec/93_implementation_defined.md G2. -/
def Obligations.JumpAndLinkRegister : Prop :=
  Row 0x0000707F#32 0x00000067#32 (fun w => .jalr (regAt w 7) (immIAt w) (regAt w 15)) ∧
  ∀ (s : State) (rd rs1 : Reg) (imm : BitVec 12),
    ∃ t, exec (.jalr rd imm rs1) s = .next t ∧
      RegisterStep s t rd (s.pc + 4) (BitVec.ofNat 32 (2 * ((plusImm (s.readReg rs1) imm).toNat / 2)))

/-- LUI writes imm20 times 2^12, AUIPC the pc plus that. Every word of the two opcodes decodes to rd and inst[31:12]. In
every state, for all operands, LUI writes inst[31:12] shifted to bits 31:12 with the low 12 bits zero, and AUIPC the
instruction's own address plus that value modulo 2^32 (decision D6, log entry 10), to rd (discarded for x0); the pc
goes to pc + 4 and nothing else changes. From spec/47_upper_imm.md LUI, AUIPC, spec/92_eei_decisions.md D6. -/
def Obligations.UpperImmediates : Prop :=
  Row 0x0000007F#32 0x00000037#32 (fun w => .lui (regAt w 7) (imm20At w)) ∧
  Row 0x0000007F#32 0x00000017#32 (fun w => .auipc (regAt w 7) (imm20At w)) ∧
  ∀ (s : State) (rd : Reg) (imm20 : BitVec 20),
    Writes (.lui rd imm20) s rd (BitVec.ofNat 32 (imm20.toNat * 2 ^ 12)) ∧
    Writes (.auipc rd imm20) s rd (BitVec.ofNat 32 (s.pc.toNat + imm20.toNat * 2 ^ 12))

/-- BEQ is taken when x[rs1] = x[rs2] and BNE when not. Every word of the two rows decodes to its fields, the scattered
immediate put together (bit positions: the spec's general knowledge, G3, log entry 21). In every state, for all
operands, the branch completes: the pc is pc plus the signed offset when taken and pc + 4 otherwise, modulo 2^32
(decision D6, log entry 10), with no check of the target, and nothing else changes. From spec/48_branches.md BEQ, BNE,
spec/93_implementation_defined.md G3, spec/92_eei_decisions.md D6. -/
def Obligations.BranchesOnEquality : Prop :=
  Row 0x0000707F#32 0x00000063#32 (fun w => .beq (regAt w 15) (regAt w 20) (immBAt w)) ∧
  Row 0x0000707F#32 0x00001063#32 (fun w => .bne (regAt w 15) (regAt w 20) (immBAt w)) ∧
  ∀ (s : State) (rs1 rs2 : Reg) (offset : BitVec 13),
    GoesTo (.beq rs1 rs2 offset) s (if s.readReg rs1 = s.readReg rs2 then plusImm s.pc offset else s.pc + 4) ∧
    GoesTo (.bne rs1 rs2 offset) s (if s.readReg rs1 = s.readReg rs2 then s.pc + 4 else plusImm s.pc offset)

/-- BLT is taken when x[rs1] is less than x[rs2] as signed numbers and BGE when not. As for BEQ and BNE, with the
two's-complement readings of x[rs1] and x[rs2] compared; the bit positions of the immediate are the spec's general
knowledge (G3, log entry 21), and the sums are modulo 2^32 (decision D6, log entry 10). From spec/48_branches.md BLT,
BGE, spec/93_implementation_defined.md G3, spec/92_eei_decisions.md D6. -/
def Obligations.BranchesOnSignedOrder : Prop :=
  Row 0x0000707F#32 0x00004063#32 (fun w => .blt (regAt w 15) (regAt w 20) (immBAt w)) ∧
  Row 0x0000707F#32 0x00005063#32 (fun w => .bge (regAt w 15) (regAt w 20) (immBAt w)) ∧
  ∀ (s : State) (rs1 rs2 : Reg) (offset : BitVec 13),
    GoesTo (.blt rs1 rs2 offset) s (if (s.readReg rs1).toInt < (s.readReg rs2).toInt then plusImm s.pc offset else s.pc + 4) ∧
    GoesTo (.bge rs1 rs2 offset) s (if (s.readReg rs1).toInt < (s.readReg rs2).toInt then s.pc + 4 else plusImm s.pc offset)

/-- BLTU is taken when x[rs1] is less than x[rs2] as unsigned numbers and BGEU when not. As for BEQ and BNE, with the
unsigned readings of x[rs1] and x[rs2] compared; the bit positions of the immediate are the spec's general knowledge
(G3, log entry 21), and the sums are modulo 2^32 (decision D6, log entry 10). From spec/48_branches.md BLTU, BGEU,
spec/93_implementation_defined.md G3, spec/92_eei_decisions.md D6. -/
def Obligations.BranchesOnUnsignedOrder : Prop :=
  Row 0x0000707F#32 0x00006063#32 (fun w => .bltu (regAt w 15) (regAt w 20) (immBAt w)) ∧
  Row 0x0000707F#32 0x00007063#32 (fun w => .bgeu (regAt w 15) (regAt w 20) (immBAt w)) ∧
  ∀ (s : State) (rs1 rs2 : Reg) (offset : BitVec 13),
    GoesTo (.bltu rs1 rs2 offset) s (if (s.readReg rs1).toNat < (s.readReg rs2).toNat then plusImm s.pc offset else s.pc + 4) ∧
    GoesTo (.bgeu rs1 rs2 offset) s (if (s.readReg rs1).toNat < (s.readReg rs2).toNat then s.pc + 4 else plusImm s.pc offset)

/-- A step is exec of the instruction the four bytes at the pc decode to, and then the trace hook. When the core is
Running, the pc aligned and in range, and the word read little-endian from the four bytes at the pc decodes to i, then
i is well-formed, exec i answers a next state t, and the step answers t after the trace hook (traceInstr), which with
the trace flag false is t itself. That the bound is compared as integers is decision D5 (log entry 10). From
spec/10_state.md section 8, spec/20_memory.md sections 2 and 3, spec/92_eei_decisions.md D5. -/
def Obligations.StepRunsTheDecodedInstruction : Prop :=
  ∀ (s : State) (i : Instr), s.run = .running → AccessOk s s.pc 4 →
    decode (wordAtPc s) = .ok i →
    i.wf = true ∧ ∃ t, exec i s = .next t ∧
      step s = .next (traceInstr s (wordAtPc s) i t) ∧
      (s.trace = false → step s = .next t)

/-- A misaligned pc halts the step, and then an out-of-range one, before anything else. In Running, a pc not a multiple of
4 makes the step halt with Misaligned(pc, 4), and an aligned pc with pc + 4 past the capacity, as integers (decision
D5, log entry 10), with OutOfRange(pc, 4, MEM_CAPACITY); only the run state changes (that the pc stays is decision
D8). From spec/20_memory.md section 3, spec/60_exceptions.md section 3, spec/92_eei_decisions.md D5, D8. -/
def Obligations.FetchErrorsHalt : Prop :=
  ∀ s : State, s.run = .running →
    (s.pc.toNat % 4 ≠ 0 → step s = .next { s with run := .halted (.misaligned s.pc 4) }) ∧
    (s.pc.toNat % 4 = 0 → s.capacity < s.pc.toNat + 4 →
      step s = .next { s with run := .halted (.outOfRange s.pc 4 s.capacity) })

/-- A word that decodes to nothing halts the step with IllegalInstruction(pc, word). In Running, when the word at an
aligned pc in range is rejected by decode, the step halts with IllegalInstruction(pc, word) (the recorded fields are
decision D11); registers, CSRs, memory, pc, trace flag and capacity are as before (the pc by decision D8), and with
the trace flag true the one record `illegal` is emitted first. That the bound is compared as integers is decision D5
(log entry 10). From spec/30_encoding.md section 4, spec/60_exceptions.md sections 1 and 6, spec/92_eei_decisions.md
D5, D8, D11. -/
def Obligations.IllegalWordHaltsTheStep : Prop :=
  ∀ s : State, s.run = .running → AccessOk s s.pc 4 →
    (∃ e, decode (wordAtPc s) = .error e) →
    ∃ t, step s = .next t ∧ t.run = .halted (.illegalInstruction s.pc (wordAtPc s)) ∧
      SameRegs s t ∧ SameCsrs s t ∧ SameMem s t ∧ t.pc = s.pc ∧ t.trace = s.trace ∧ t.capacity = s.capacity ∧
      t.traceOut = s.traceOut ++ (if s.trace then
        [⟨s.pc, wordAtPc s, .illegal, [], none⟩] else [])

/-- In Running a step always answers a next state, Running or halted with the first failing check's reason. For every
Running state the step answers a next state. Its run state is Halted with the reason of the first check that fails, in
the order fetch alignment, fetch bounds, decode, then the instruction (ECALL, EBREAK, or a load's or store's alignment
before its bounds), and Running when none fails. The integer bounds and the modular addresses are decisions D5 and D6
(log entry 10), and which words are instructions rests on D7 and D21 too (log entries 11 and 12). From
spec/60_exceptions.md sections 1 and 3 (the priority, derived there), spec/92_eei_decisions.md D5, D6, D7, D11, D21. -/
def Obligations.StepOutcomeFollowsThePriority : Prop :=
  ∀ s : State, s.run = .running → ∃ t, step s = .next t ∧
    t.run = (match expectedHalt s with | some r => .halted r | none => .running)

/-- Only reset enters Running, and a halted core takes no step. A step that answers a next state was taken in Running, so
no step enters Running from another run state; a step in Halted(r) is refused (decision D10, log entry 2); setTrace
and loadBytes leave the run state; reset(startPc) leads to Running from every run state. From spec/10_state.md section
5, spec/60_exceptions.md section 1, spec/92_eei_decisions.md D10. -/
def Obligations.RunStateTransitions : Prop :=
  (∀ s t : State, step s = .next t → s.run = .running) ∧
  (∀ (s : State) (r : HaltReason), s.run = .halted r → step s = .refused (.stepWhileHalted r)) ∧
  (∀ (s : State) (b : Bool), (s.setTrace b).run = s.run) ∧
  (∀ (s t : State) (bytes : List Byte) (base : Word), s.loadBytes bytes base = .ok t → t.run = s.run) ∧
  (∀ (s : State) (startPc : Word), (s.hostReset startPc).run = .running)

/-- An Unstarted core has no step, and reset starts it. In the run state Unstarted (the spec's own name, decision D22) the
step is the named fault, and reset(startPc) leads to Running with the pc at startPc. From spec/10_state.md section 5,
spec/93_implementation_defined.md U2, spec/92_eei_decisions.md D22. -/
def Obligations.UnstartedCoreIsStuck : Prop :=
  ∀ s : State, s.run = .unstarted → step s = .fault .stuckUnstarted ∧
    ∀ startPc : Word, (s.hostReset startPc).run = .running ∧ (s.hostReset startPc).pc = startPc

/-- A step that halts changes the run state and at most the trace output. Whenever a step ends in a halted state, for
whatever reason, every register, CSR and byte of memory, the capacity and the trace flag are as before the step, and
so is the pc (decision D8). From spec/10_state.md section 8, spec/60_exceptions.md section 4, spec/92_eei_decisions.md
D8. -/
def Obligations.HaltCommitsNothing : Prop :=
  ∀ s t : State, step s = .next t → t.run ≠ .running →
    SameRegs s t ∧ SameCsrs s t ∧ SameMem s t ∧ t.pc = s.pc ∧ t.trace = s.trace ∧ t.capacity = s.capacity

/-- Every step keeps the invariant: x0 is 0, memory and CSR file canonical and within their ranges. From every state with
the invariant (x0's cell is 0, the capacity is one the spec admits, memory is in canonical form with every listed
address below the capacity, the CSR file is in canonical form with every address below 4096), a step that answers a
next state leads to a state with the invariant. The bound 2^32 on the capacity is decision D1 (log entry 3). From
spec/10_state.md sections 1, 3 and 8, spec/20_memory.md section 1, spec/92_eei_decisions.md D1. -/
def Obligations.StepKeepsInv : Prop :=
  ∀ s t : State, s.Inv → step s = .next t → t.Inv

/-- Every legal launch, and State.reset, has the invariant. For every capacity the spec admits, every start pc, every
initial memory in canonical form and either trace flag, the state after launch has the invariant and every register
and CSR reads 0; State.reset has the invariant. The bound 2^32 on the capacity is decision D1 (log entry 3). From
spec/00_scope.md section 3, spec/70_reset_and_hazards.md section 1, spec/92_eei_decisions.md D1. -/
def Obligations.LaunchMeetsInv : Prop :=
  (∀ p : Launch, p.memCapacity ≤ maxCapacity → Memory.wf p.memCapacity p.initMem = true →
    (State.launch p).Inv ∧ (∀ r, (State.launch p).readReg r = 0) ∧ (∀ a, (State.launch p).readCsr a = 0)) ∧
  State.reset.Inv

/-- reset, loadBytes and setTrace keep the invariant. From every state with the invariant, reset(startPc), setTrace(b) and
every loadBytes that is not refused lead to a state with the invariant. From spec/10_state.md section 7,
spec/20_memory.md section 7. -/
def Obligations.HostOperationsKeepInv : Prop :=
  ∀ s : State, s.Inv →
    (∀ startPc, (s.hostReset startPc).Inv) ∧ (∀ b, (s.setTrace b).Inv) ∧
    (∀ bytes base t, s.loadBytes bytes base = .ok t → t.Inv)

/-- After every completed step x0 is 0, and a write to it is a no-op. From every state, also one whose x0 cell is not 0, a
completed step leaves x0's cell 0; register 0 reads 0 after any step; and a register write to x0 changes nothing. From
R162. -/
def Obligations.RegisterZeroAfterEveryStep : Prop :=
  (∀ s t : State, step s = .next t → t.run = .running → t.x[0] = 0) ∧
  (∀ s t : State, step s = .next t → t.readReg 0 = 0) ∧
  (∀ (s : State) (v : Word), s.writeReg 0 v = s)

/-- A core started at an even pc never leaves the even addresses. From every state whose pc is even, a step that answers a
next state leaves an even pc: pc + 4 keeps it, the branch and JAL offsets that decode gives are even, and JALR clears
bit 0. That pc + 4 is modulo 2^32 is decision D6 (log entry 10). That a halt leaves the pc is decision D8 (log entry
8). From spec/46_jumps.md, spec/48_branches.md, spec/30_encoding.md section 2, spec/92_eei_decisions.md D6, D8. -/
def Obligations.EvenPcStaysEven : Prop :=
  ∀ s t : State, s.pc.toNat % 2 = 0 → step s = .next t → t.pc.toNat % 2 = 0

/-- No step changes the memory's capacity or the trace flag. Whatever a step does, the capacity (fixed at construction)
and the trace flag (set by the host only) are as before, and the trace output only grows. That only the host sets the
flag is decision D4 (log entry 6). From spec/20_memory.md section 1, spec/10_state.md section 6,
spec/92_eei_decisions.md D4. -/
def Obligations.CapacityAndTraceFlagAreFixed : Prop :=
  ∀ s t : State, step s = .next t →
    t.capacity = s.capacity ∧ t.trace = s.trace ∧ ∃ rs, rs.length ≤ 1 ∧ t.traceOut = s.traceOut ++ rs

/-- A step changes no register but the one inst[11:7] names, and only for an instruction that has a destination. If a step
changes what a register reads, the core was Running, the register is not x0 and is the one the field inst[11:7] of the
fetched word names, the word decodes to an instruction, its opcode is that of a load, a register-immediate or
register-register ALU instruction, AUIPC, LUI, JALR, JAL or the CSR instructions, and under the CSR opcode its funct3
is neither 0 nor 4. From spec/10_state.md section 1. -/
def Obligations.OnlyTheNamedRegisterChanges : Prop :=
  ∀ (s t : State) (r : Reg), step s = .next t → t.readReg r ≠ s.readReg r →
    s.run = .running ∧ r ≠ 0 ∧ ∃ w, s.fetch = .ok w ∧ r = regAt w 7 ∧ (∃ i, decode w = .ok i) ∧
      bits w 6 0 ∈ [0x03, 0x13, 0x17, 0x33, 0x37, 0x67, 0x6F, 0x73] ∧
      (bits w 6 0 = 0x73 → bits w 14 12 ∉ [0, 4])

/-- A step changes no CSR but the one inst[31:20] names, and only under a CSR instruction. If a step changes what a CSR
reads, the fetched word has opcode 0x73 and a funct3 other than 0 and 4, and the CSR is the one its field inst[31:20]
addresses. From spec/10_state.md section 3. -/
def Obligations.OnlyCsrInstructionsChangeCsrs : Prop :=
  ∀ (s t : State) (a : CsrAddr), step s = .next t → t.readCsr a ≠ s.readCsr a →
    ∃ w, s.fetch = .ok w ∧ bits w 6 0 = 0x73 ∧ bits w 14 12 ∉ [0, 4] ∧ a = csrAt w

/-- A step changes no byte of memory but those a store names, within the capacity. If a step changes what a byte of memory
reads, the fetched word has the store opcode, its funct3 is 0, 1 or 2, and the byte lies within the 1, 2 or 4 bytes
from ea = x[rs1] + imm_s on, all below the capacity. That ea is modulo 2^32 and the bound is on integers are decisions
D6 and D5 (log entry 10). From spec/20_memory.md section 4, spec/92_eei_decisions.md D5, D6. -/
def Obligations.OnlyStoresChangeMemory : Prop :=
  ∀ (s t : State) (a : Nat), step s = .next t → t.readByte a ≠ s.readByte a →
    ∃ w, s.fetch = .ok w ∧ bits w 6 0 = 0x23 ∧ bits w 14 12 ≤ 2 ∧
      (plusImm (s.readReg (regAt w 15)) (immSAt w)).toNat ≤ a ∧
      a < (plusImm (s.readReg (regAt w 15)) (immSAt w)).toNat + 2 ^ bits w 14 12 ∧
      (plusImm (s.readReg (regAt w 15)) (immSAt w)).toNat + 2 ^ bits w 14 12 ≤ s.capacity

/-- A completed step moves the pc to pc + 4 unless the word is a jump or a branch. If a completed step leaves a pc other
than pc + 4, the fetched word has the JAL, the JALR or the branch opcode. That pc + 4 is modulo 2^32 is decision D6
(log entry 10). From spec/10_state.md section 2, spec/92_eei_decisions.md D6. -/
def Obligations.PcAdvancesByFourExceptAtJumps : Prop :=
  ∀ s t : State, step s = .next t → t.run = .running → t.pc ≠ s.pc + 4 →
    ∃ w, s.fetch = .ok w ∧ bits w 6 0 ∈ [0x6F, 0x67, 0x63]

/-- MemRead checks alignment, then bounds, and assembles the bytes little-endian. For every state and address, the reads
of 1, 2 and 4 bytes fail with Misaligned(addr, n) when addr is not a multiple of n (never for n = 1), then with
OutOfRange(addr, n, MEM_CAPACITY) when addr + n, as integers (decision D5, log entry 10), exceeds the capacity, and
otherwise give the number whose bits 8k+7:8k are the byte at addr + k. From spec/20_memory.md sections 1 and 2,
spec/92_eei_decisions.md D5. -/
def Obligations.MemoryReadContract : Prop :=
  ∀ (s : State) (addr : Word),
    (s.memRead8 addr).map BitVec.toNat =
      (if addr.toNat + 1 > s.capacity then .error (.outOfRange addr 1 s.capacity) else .ok (leNat s addr.toNat 1)) ∧
    (s.memRead16 addr).map BitVec.toNat =
      (if addr.toNat % 2 ≠ 0 then .error (.misaligned addr 2)
       else if addr.toNat + 2 > s.capacity then .error (.outOfRange addr 2 s.capacity) else .ok (leNat s addr.toNat 2)) ∧
    (s.memRead32 addr).map BitVec.toNat =
      (if addr.toNat % 4 ≠ 0 then .error (.misaligned addr 4)
       else if addr.toNat + 4 > s.capacity then .error (.outOfRange addr 4 s.capacity) else .ok (leNat s addr.toNat 4))

/-- Memories and CSR files in canonical form with equal contents are equal data. Two states with the invariant and the
same capacity whose bytes read the same at every address have the same memory list, and likewise for the CSR files:
the model's representation (log entry 5) adds nothing a program could tell apart. From spec/20_memory.md section 1,
spec/10_state.md section 3. -/
def Obligations.CanonicalStatesWithEqualContentsAreEqual : Prop :=
  ∀ s t : State, s.Inv → t.Inv → s.capacity = t.capacity →
    (SameMem s t → t.mem = s.mem) ∧ (SameCsrs s t → t.csr = s.csr)

/-- reset(startPc) clears registers and CSRs, sets the pc and starts the core, from every run state. From every state,
whatever its run state, after reset(startPc) every register and every CSR reads 0, the cells of the registers are 0,
the pc is startPc and the core is Running; and a step that leaves the core Running was taken in Running, so no step
enters Running from another run state. From R800. -/
def Obligations.ResetClearsRegistersAndCsrs : Prop :=
  ∀ (s : State) (startPc : Word),
    (∀ r, (s.hostReset startPc).readReg r = 0) ∧ (s.hostReset startPc).x = Vector.replicate 32 0 ∧
    (∀ a, (s.hostReset startPc).readCsr a = 0) ∧ (s.hostReset startPc).pc = startPc ∧
    (s.hostReset startPc).run = .running ∧
    (∀ u t : State, step u = .next t → t.run = .running → u.run = .running)

/-- reset(startPc) leaves memory, its capacity and the trace flag. From every state, reset(startPc) leaves every byte of
memory and the capacity (which the spec derives), and the trace flag (decision D4). From spec/70_reset_and_hazards.md
section 1, spec/92_eei_decisions.md D4. -/
def Obligations.ResetKeepsMemoryAndTraceFlag : Prop :=
  ∀ (s : State) (startPc : Word),
    SameMem s (s.hostReset startPc) ∧ (s.hostReset startPc).capacity = s.capacity ∧
    (s.hostReset startPc).trace = s.trace

/-- loadBytes copies the sequence verbatim, or is refused with OutOfRange and changes nothing. In every state whose memory
is in canonical form: if base + length, as integers (decision D5, log entry 10), exceeds the capacity the call answers
OutOfRange with no new state; otherwise it answers a state in which byte base + k is bytes[k], every other byte, every
register, every CSR, the pc, the run state and the rest are as before, whatever the alignment of base. From
spec/20_memory.md section 7 (loadBytes), spec/92_eei_decisions.md D5. -/
def Obligations.LoadBytesContract : Prop :=
  ∀ (s : State) (bytes : List Byte) (base : Word), Memory.wf s.capacity s.mem = true →
    (s.capacity < base.toNat + bytes.length →
      s.loadBytes bytes base = .error (.outOfRange base bytes.length s.capacity)) ∧
    (base.toNat + bytes.length ≤ s.capacity → ∃ t, s.loadBytes bytes base = .ok t ∧
      (∀ k b, bytes[k]? = some b → t.readByte (base.toNat + k) = b) ∧
      (∀ a, a < base.toNat ∨ base.toNat + bytes.length ≤ a → t.readByte a = s.readByte a) ∧
      SameRegs s t ∧ SameCsrs s t ∧ SameRest s t ∧ t.pc = s.pc)

/-- withFetchWord puts the word where the next step fetches it. For every state whose memory is in canonical form and
every word, in withFetchWord s 32 w the core is Running and the fetch gives the word, and a pc already aligned and in
range, and a Running core, stay (the model's own operation, log entry 16). From spec/10_state.md section 8,
spec/20_memory.md section 7. -/
def Obligations.PlacedWordIsFetched : Prop :=
  ∀ (s : State) (w : Word), Memory.wf s.capacity s.mem = true →
    (s.withFetchWord 32 w.toNat).fetch = .ok w ∧ (s.withFetchWord 32 w.toNat).run = .running ∧
    (AccessOk s s.pc 4 → (s.withFetchWord 32 w.toNat).pc = s.pc ∧ (s.withFetchWord 32 w.toNat).capacity = s.capacity)

/-- With the trace flag true a normal step emits one record; with it false no step emits any. A step that leaves the core
Running adds exactly one record to the trace output when the trace flag is true; no step adds any when it is false.
From R781. -/
def Obligations.NormalStepEmitsOneRecord : Prop :=
  ∀ s t : State, step s = .next t →
    (s.trace = true → t.run = .running → ∃ r, t.traceOut = s.traceOut ++ [r]) ∧
    (s.trace = false → t.traceOut = s.traceOut)

/-- ECALL and EBREAK emit a record with no operands and no writeback before they stop. In Running with the trace flag
true, a step whose fetched word is the ECALL or the EBREAK word adds the record of that pc, word and mnemonic with no
operands and no writeback field, and ends halted. From R782. -/
def Obligations.EcallAndEbreakRecords : Prop :=
  ∀ s : State, s.run = .running → s.trace = true →
    (s.fetch = .ok 0x00000073#32 → ∃ t, step s = .next t ∧ t.run = .halted .environmentCall ∧
      t.traceOut = s.traceOut ++ [⟨s.pc, 0x00000073#32, .ecall, [], none⟩]) ∧
    (s.fetch = .ok 0x00100073#32 → ∃ t, step s = .next t ∧ t.run = .halted .breakpoint ∧
      t.traceOut = s.traceOut ++ [⟨s.pc, 0x00100073#32, .ebreak, [], none⟩])

/-- A step that halts on a fetch, load or store error emits no record. A step that ends halted with Misaligned or
OutOfRange leaves the trace output as it was (decision D14). From spec/60_exceptions.md section 6,
spec/92_eei_decisions.md D14, spec/90_conflicts.md C3. -/
def Obligations.MemoryErrorsEmitNoRecord : Prop :=
  ∀ s t : State, step s = .next t →
    ((∃ a n, t.run = .halted (.misaligned a n)) ∨ (∃ a n c, t.run = .halted (.outOfRange a n c))) →
    t.traceOut = s.traceOut

/-- The record of a completed step carries its pc, its word and the one register it wrote. The record of a completed step
has the pc the step started from and the fetched word. If it has a writeback field (rd, v), then rd is not x0, rd
reads v after the step and every other register reads as before; if it has none, every register reads as before. From
spec/60_exceptions.md section 6, spec/92_eei_decisions.md D14. -/
def Obligations.RecordReportsTheWriteback : Prop :=
  ∀ s t : State, step s = .next t → s.trace = true → t.run = .running →
    ∃ rec w, t.traceOut = s.traceOut ++ [rec] ∧ s.fetch = .ok w ∧ rec.pc = s.pc ∧ rec.word = w ∧
      (∀ rd v, rec.wb = some (rd, v) → rd ≠ 0 ∧ t.readReg rd = v ∧ ∀ r, r ≠ rd → t.readReg r = s.readReg r) ∧
      (rec.wb = none → SameRegs s t)

/-- Tracing has no effect on any other state, over any number of steps. Two states that differ at most in the trace flag
and the trace output run in step: after any number of steps from each, either both have reached a next state and the
two again differ at most there, or both have ended in the same fault or the same refusal. From spec/60_exceptions.md
section 6 (derived there), spec/10_state.md section 6. -/
def Obligations.TracingChangesNothingElse : Prop :=
  ∀ (n : Nat) (s t : State), untraced s = untraced t →
    match Host.Core.run Sys2Proof.core n s, Host.Core.run Sys2Proof.core n t with
    | .next s', .next t' => untraced s' = untraced t'
    | .fault f, .fault g => f = g
    | .refused f, .refused g => f = g
    | _, _ => False
end

