-- ==== Sys2Proof/Laws/Encoding.lean ====
section
/-! SUPPORT. The fields of an encoded word, format by format (spec/30_encoding.md R301 to R307, R310 to R318), and the other
way round: the fields of a word, encoded again, give the word. Each is the same computation: a field of a concatenation lies
in one of its parts, and adjacent fields join. -/

-- one theorem at a time: the checker's memory limit does not hold a stack for each of many theorems at once
set_option Elab.async false

namespace Sys2Proof

@[simp] theorem regBits_toFin (r : Reg) : (regBits r).toFin = r := rfl

@[simp] theorem regBits_of_field (b : BitVec 5) : regBits b.toFin = b := rfl

/-- A bit vector whose bit 0 is clear has 0 as its lowest 1-bit field. -/
theorem low_bit_of_clear {n : Nat} (v : BitVec (n + 1)) (h : v[0] = false) : (0#1 : BitVec 1) = v.extractLsb' 0 1 := by
  ext i hi
  obtain rfl : i = 0 := by omega
  simp [h]

/-! ### R-type -/

@[simp] theorem encodeR_opcode (f7 : BitVec 7) (r2 : BitVec 5) (r1 : Reg) (f3 : BitVec 3) (d : Reg) (op : BitVec 7) :
    InstWord.opcode (encodeR f7 r2 r1 f3 d op) = op := by
  simp [InstWord.opcode, encodeR, BitVec.extractLsb'_append_eq_of_add_le, -BitVec.toFin_extractLsb', -BitVec.toFin_ushiftRight, -Nat.reduceAdd]

@[simp] theorem encodeR_funct3 (f7 : BitVec 7) (r2 : BitVec 5) (r1 : Reg) (f3 : BitVec 3) (d : Reg) (op : BitVec 7) :
    InstWord.funct3 (encodeR f7 r2 r1 f3 d op) = f3 := by
  simp [InstWord.funct3, encodeR, BitVec.extractLsb'_append_eq_of_le, BitVec.extractLsb'_append_eq_of_add_le, -BitVec.toFin_extractLsb', -BitVec.toFin_ushiftRight, -Nat.reduceAdd]

@[simp] theorem encodeR_funct7 (f7 : BitVec 7) (r2 : BitVec 5) (r1 : Reg) (f3 : BitVec 3) (d : Reg) (op : BitVec 7) :
    InstWord.funct7 (encodeR f7 r2 r1 f3 d op) = f7 := by
  simp [InstWord.funct7, encodeR, BitVec.extractLsb'_append_eq_of_le, -BitVec.toFin_extractLsb', -BitVec.toFin_ushiftRight, -Nat.reduceAdd]

@[simp] theorem encodeR_rd (f7 : BitVec 7) (r2 : BitVec 5) (r1 : Reg) (f3 : BitVec 3) (d : Reg) (op : BitVec 7) :
    InstWord.rd (encodeR f7 r2 r1 f3 d op) = d := by
  simp [InstWord.rd, encodeR, BitVec.extractLsb'_append_eq_of_le, BitVec.extractLsb'_append_eq_of_add_le, -BitVec.toFin_extractLsb', -BitVec.toFin_ushiftRight, -Nat.reduceAdd]

@[simp] theorem encodeR_rs1 (f7 : BitVec 7) (r2 : BitVec 5) (r1 : Reg) (f3 : BitVec 3) (d : Reg) (op : BitVec 7) :
    InstWord.rs1 (encodeR f7 r2 r1 f3 d op) = r1 := by
  simp [InstWord.rs1, encodeR, BitVec.extractLsb'_append_eq_of_le, BitVec.extractLsb'_append_eq_of_add_le, -BitVec.toFin_extractLsb', -BitVec.toFin_ushiftRight, -Nat.reduceAdd]

@[simp] theorem encodeR_shamt (f7 : BitVec 7) (r2 : BitVec 5) (r1 : Reg) (f3 : BitVec 3) (d : Reg) (op : BitVec 7) :
    InstWord.shamt (encodeR f7 r2 r1 f3 d op) = r2 := by
  simp [InstWord.shamt, encodeR, BitVec.extractLsb'_append_eq_of_le, BitVec.extractLsb'_append_eq_of_add_le, -BitVec.toFin_extractLsb', -BitVec.toFin_ushiftRight, -Nat.reduceAdd]

@[simp] theorem encodeR_rs2 (f7 : BitVec 7) (r2 : BitVec 5) (r1 : Reg) (f3 : BitVec 3) (d : Reg) (op : BitVec 7) :
    InstWord.rs2 (encodeR f7 r2 r1 f3 d op) = r2.toFin := by
  simp [InstWord.rs2, encodeR, BitVec.extractLsb'_append_eq_of_le, BitVec.extractLsb'_append_eq_of_add_le, -BitVec.toFin_extractLsb', -BitVec.toFin_ushiftRight, -Nat.reduceAdd]

/-! ### I-type -/

@[simp] theorem encodeI_opcode (imm : BitVec 12) (r1 : BitVec 5) (f3 : BitVec 3) (d : Reg) (op : BitVec 7) :
    InstWord.opcode (encodeI imm r1 f3 d op) = op := by
  simp [InstWord.opcode, encodeI, BitVec.extractLsb'_append_eq_of_add_le, -BitVec.toFin_extractLsb', -BitVec.toFin_ushiftRight, -Nat.reduceAdd]

@[simp] theorem encodeI_funct3 (imm : BitVec 12) (r1 : BitVec 5) (f3 : BitVec 3) (d : Reg) (op : BitVec 7) :
    InstWord.funct3 (encodeI imm r1 f3 d op) = f3 := by
  simp [InstWord.funct3, encodeI, BitVec.extractLsb'_append_eq_of_le, BitVec.extractLsb'_append_eq_of_add_le, -BitVec.toFin_extractLsb', -BitVec.toFin_ushiftRight, -Nat.reduceAdd]

@[simp] theorem encodeI_rd (imm : BitVec 12) (r1 : BitVec 5) (f3 : BitVec 3) (d : Reg) (op : BitVec 7) :
    InstWord.rd (encodeI imm r1 f3 d op) = d := by
  simp [InstWord.rd, encodeI, BitVec.extractLsb'_append_eq_of_le, BitVec.extractLsb'_append_eq_of_add_le, -BitVec.toFin_extractLsb', -BitVec.toFin_ushiftRight, -Nat.reduceAdd]

@[simp] theorem encodeI_rs1 (imm : BitVec 12) (r1 : BitVec 5) (f3 : BitVec 3) (d : Reg) (op : BitVec 7) :
    InstWord.rs1 (encodeI imm r1 f3 d op) = r1.toFin := by
  simp [InstWord.rs1, encodeI, BitVec.extractLsb'_append_eq_of_le, BitVec.extractLsb'_append_eq_of_add_le, -BitVec.toFin_extractLsb', -BitVec.toFin_ushiftRight, -Nat.reduceAdd]

@[simp] theorem encodeI_zimm (imm : BitVec 12) (r1 : BitVec 5) (f3 : BitVec 3) (d : Reg) (op : BitVec 7) :
    InstWord.zimm (encodeI imm r1 f3 d op) = r1 := by
  simp [InstWord.zimm, encodeI, BitVec.extractLsb'_append_eq_of_le, BitVec.extractLsb'_append_eq_of_add_le, -BitVec.toFin_extractLsb', -BitVec.toFin_ushiftRight, -Nat.reduceAdd]

@[simp] theorem encodeI_immI (imm : BitVec 12) (r1 : BitVec 5) (f3 : BitVec 3) (d : Reg) (op : BitVec 7) :
    InstWord.immI (encodeI imm r1 f3 d op) = imm := by
  simp [InstWord.immI, encodeI, BitVec.extractLsb'_append_eq_of_le, -BitVec.toFin_extractLsb', -BitVec.toFin_ushiftRight, -Nat.reduceAdd]

@[simp] theorem encodeI_csrAddr (imm : BitVec 12) (r1 : BitVec 5) (f3 : BitVec 3) (d : Reg) (op : BitVec 7) :
    InstWord.csrAddr (encodeI imm r1 f3 d op) = imm := by
  simp [InstWord.csrAddr, encodeI, BitVec.extractLsb'_append_eq_of_le, -BitVec.toFin_extractLsb', -BitVec.toFin_ushiftRight, -Nat.reduceAdd]

/-! ### S-type -/

@[simp] theorem encodeS_opcode (imm : BitVec 12) (r2 r1 : Reg) (f3 : BitVec 3) (op : BitVec 7) :
    InstWord.opcode (encodeS imm r2 r1 f3 op) = op := by
  simp [InstWord.opcode, encodeS, BitVec.extractLsb'_append_eq_of_add_le, -BitVec.toFin_extractLsb', -BitVec.toFin_ushiftRight, -Nat.reduceAdd]

@[simp] theorem encodeS_funct3 (imm : BitVec 12) (r2 r1 : Reg) (f3 : BitVec 3) (op : BitVec 7) :
    InstWord.funct3 (encodeS imm r2 r1 f3 op) = f3 := by
  simp [InstWord.funct3, encodeS, BitVec.extractLsb'_append_eq_of_le, BitVec.extractLsb'_append_eq_of_add_le, -BitVec.toFin_extractLsb', -BitVec.toFin_ushiftRight, -Nat.reduceAdd]

@[simp] theorem encodeS_rs1 (imm : BitVec 12) (r2 r1 : Reg) (f3 : BitVec 3) (op : BitVec 7) :
    InstWord.rs1 (encodeS imm r2 r1 f3 op) = r1 := by
  simp [InstWord.rs1, encodeS, BitVec.extractLsb'_append_eq_of_le, BitVec.extractLsb'_append_eq_of_add_le, -BitVec.toFin_extractLsb', -BitVec.toFin_ushiftRight, -Nat.reduceAdd]

@[simp] theorem encodeS_rs2 (imm : BitVec 12) (r2 r1 : Reg) (f3 : BitVec 3) (op : BitVec 7) :
    InstWord.rs2 (encodeS imm r2 r1 f3 op) = r2 := by
  simp [InstWord.rs2, encodeS, BitVec.extractLsb'_append_eq_of_le, BitVec.extractLsb'_append_eq_of_add_le, -BitVec.toFin_extractLsb', -BitVec.toFin_ushiftRight, -Nat.reduceAdd]

@[simp] theorem encodeS_immS (imm : BitVec 12) (r2 r1 : Reg) (f3 : BitVec 3) (op : BitVec 7) :
    InstWord.immS (encodeS imm r2 r1 f3 op) = imm := by
  simp [InstWord.immS, encodeS, BitVec.extractLsb'_append_eq_of_le, BitVec.extractLsb'_append_eq_of_add_le, -BitVec.toFin_extractLsb', -BitVec.toFin_ushiftRight, -Nat.reduceAdd]

/-! ### B-type -/

@[simp] theorem encodeB_opcode (imm : BitVec 13) (r2 r1 : Reg) (f3 : BitVec 3) (op : BitVec 7) :
    InstWord.opcode (encodeB imm r2 r1 f3 op) = op := by
  simp [InstWord.opcode, encodeB, BitVec.extractLsb'_append_eq_of_add_le, -BitVec.toFin_extractLsb', -BitVec.toFin_ushiftRight, -Nat.reduceAdd]

@[simp] theorem encodeB_funct3 (imm : BitVec 13) (r2 r1 : Reg) (f3 : BitVec 3) (op : BitVec 7) :
    InstWord.funct3 (encodeB imm r2 r1 f3 op) = f3 := by
  simp [InstWord.funct3, encodeB, BitVec.extractLsb'_append_eq_of_le, BitVec.extractLsb'_append_eq_of_add_le, -BitVec.toFin_extractLsb', -BitVec.toFin_ushiftRight, -Nat.reduceAdd]

@[simp] theorem encodeB_rs1 (imm : BitVec 13) (r2 r1 : Reg) (f3 : BitVec 3) (op : BitVec 7) :
    InstWord.rs1 (encodeB imm r2 r1 f3 op) = r1 := by
  simp [InstWord.rs1, encodeB, BitVec.extractLsb'_append_eq_of_le, BitVec.extractLsb'_append_eq_of_add_le, -BitVec.toFin_extractLsb', -BitVec.toFin_ushiftRight, -Nat.reduceAdd]

@[simp] theorem encodeB_rs2 (imm : BitVec 13) (r2 r1 : Reg) (f3 : BitVec 3) (op : BitVec 7) :
    InstWord.rs2 (encodeB imm r2 r1 f3 op) = r2 := by
  simp [InstWord.rs2, encodeB, BitVec.extractLsb'_append_eq_of_le, BitVec.extractLsb'_append_eq_of_add_le, -BitVec.toFin_extractLsb', -BitVec.toFin_ushiftRight, -Nat.reduceAdd]

/-! ### U-type -/

@[simp] theorem encodeU_opcode (imm : BitVec 20) (d : Reg) (op : BitVec 7) :
    InstWord.opcode (encodeU imm d op) = op := by
  simp [InstWord.opcode, encodeU, BitVec.extractLsb'_append_eq_of_add_le, -BitVec.toFin_extractLsb', -BitVec.toFin_ushiftRight, -Nat.reduceAdd]

@[simp] theorem encodeU_rd (imm : BitVec 20) (d : Reg) (op : BitVec 7) :
    InstWord.rd (encodeU imm d op) = d := by
  simp [InstWord.rd, encodeU, BitVec.extractLsb'_append_eq_of_le, BitVec.extractLsb'_append_eq_of_add_le, -BitVec.toFin_extractLsb', -BitVec.toFin_ushiftRight, -Nat.reduceAdd]

@[simp] theorem encodeU_imm20 (imm : BitVec 20) (d : Reg) (op : BitVec 7) :
    InstWord.imm20 (encodeU imm d op) = imm := by
  simp [InstWord.imm20, encodeU, BitVec.extractLsb'_append_eq_of_le, -BitVec.toFin_extractLsb', -BitVec.toFin_ushiftRight, -Nat.reduceAdd]

/-! ### J-type -/

@[simp] theorem encodeJ_opcode (imm : BitVec 21) (d : Reg) (op : BitVec 7) :
    InstWord.opcode (encodeJ imm d op) = op := by
  simp [InstWord.opcode, encodeJ, BitVec.extractLsb'_append_eq_of_add_le, -BitVec.toFin_extractLsb', -BitVec.toFin_ushiftRight, -Nat.reduceAdd]

@[simp] theorem encodeJ_rd (imm : BitVec 21) (d : Reg) (op : BitVec 7) :
    InstWord.rd (encodeJ imm d op) = d := by
  simp [InstWord.rd, encodeJ, BitVec.extractLsb'_append_eq_of_le, BitVec.extractLsb'_append_eq_of_add_le, -BitVec.toFin_extractLsb', -BitVec.toFin_ushiftRight, -Nat.reduceAdd]

theorem encodeB_immB (imm : BitVec 13) (r2 r1 : Reg) (f3 : BitVec 3) (op : BitVec 7) (h : branchOffsetOk imm = true) :
    InstWord.immB (encodeB imm r2 r1 f3 op) = imm := by
  have h0 := low_bit_of_clear imm (by simpa [branchOffsetOk] using h)
  simp [InstWord.immB, encodeB, h0, BitVec.extractLsb'_append_eq_of_le, BitVec.extractLsb'_append_eq_of_add_le,
    BitVec.extractLsb'_append_extractLsb'_eq_extractLsb', -BitVec.toFin_extractLsb', -BitVec.toFin_ushiftRight, -Nat.reduceAdd]

theorem encodeJ_immJ (imm : BitVec 21) (d : Reg) (op : BitVec 7) (h : jumpOffsetOk imm = true) :
    InstWord.immJ (encodeJ imm d op) = imm := by
  have h0 := low_bit_of_clear imm (by simpa [jumpOffsetOk] using h)
  simp [InstWord.immJ, encodeJ, h0, BitVec.extractLsb'_append_eq_of_le, BitVec.extractLsb'_append_eq_of_add_le,
    BitVec.extractLsb'_append_extractLsb'_eq_extractLsb', -BitVec.toFin_extractLsb', -BitVec.toFin_ushiftRight, -Nat.reduceAdd]

theorem immB_even (w : Word) : branchOffsetOk (InstWord.immB w) = true := by
  simp [branchOffsetOk, InstWord.immB, ← BitVec.getLsbD_eq_getElem, BitVec.getLsbD_append, -Nat.reduceAdd]

theorem immJ_even (w : Word) : jumpOffsetOk (InstWord.immJ w) = true := by
  simp [jumpOffsetOk, InstWord.immJ, ← BitVec.getLsbD_eq_getElem, BitVec.getLsbD_append, -Nat.reduceAdd]

/-! ### A word from its fields -/

theorem encodeR_of_fields (w : Word) :
    encodeR (InstWord.funct7 w) (InstWord.shamt w) (InstWord.rs1 w) (InstWord.funct3 w) (InstWord.rd w) (InstWord.opcode w) = w := by
  simp [encodeR, InstWord.funct7, InstWord.shamt, InstWord.rs1, InstWord.funct3, InstWord.rd, InstWord.opcode, regBits, BitVec.extractLsb'_append_extractLsb'_eq_extractLsb', -BitVec.toFin_extractLsb', -BitVec.toFin_ushiftRight, -Nat.reduceAdd]

theorem encodeI_of_fields (w : Word) :
    encodeI (InstWord.immI w) (InstWord.zimm w) (InstWord.funct3 w) (InstWord.rd w) (InstWord.opcode w) = w := by
  simp [encodeI, InstWord.immI, InstWord.zimm, InstWord.funct3, InstWord.rd, InstWord.opcode, regBits, BitVec.extractLsb'_append_extractLsb'_eq_extractLsb', -BitVec.toFin_extractLsb', -BitVec.toFin_ushiftRight, -Nat.reduceAdd]

theorem encodeS_of_fields (w : Word) :
    encodeS (InstWord.immS w) (InstWord.rs2 w) (InstWord.rs1 w) (InstWord.funct3 w) (InstWord.opcode w) = w := by
  simp [encodeS, InstWord.immS, InstWord.rs2, InstWord.rs1, InstWord.funct3, InstWord.opcode, regBits, BitVec.extractLsb'_append_eq_of_le, BitVec.extractLsb'_append_eq_of_add_le,
    BitVec.extractLsb'_append_extractLsb'_eq_extractLsb', -BitVec.toFin_extractLsb', -BitVec.toFin_ushiftRight, -Nat.reduceAdd]

theorem encodeB_of_fields (w : Word) :
    encodeB (InstWord.immB w) (InstWord.rs2 w) (InstWord.rs1 w) (InstWord.funct3 w) (InstWord.opcode w) = w := by
  simp [encodeB, InstWord.immB, InstWord.rs2, InstWord.rs1, InstWord.funct3, InstWord.opcode, regBits, BitVec.extractLsb'_append_eq_of_le, BitVec.extractLsb'_append_eq_of_add_le,
    BitVec.extractLsb'_append_extractLsb'_eq_extractLsb', -BitVec.toFin_extractLsb', -BitVec.toFin_ushiftRight, -Nat.reduceAdd]

theorem encodeU_of_fields (w : Word) :
    encodeU (InstWord.imm20 w) (InstWord.rd w) (InstWord.opcode w) = w := by
  simp [encodeU, InstWord.imm20, InstWord.rd, InstWord.opcode, regBits, BitVec.extractLsb'_append_extractLsb'_eq_extractLsb', -BitVec.toFin_extractLsb', -BitVec.toFin_ushiftRight, -Nat.reduceAdd]

theorem encodeJ_of_fields (w : Word) :
    encodeJ (InstWord.immJ w) (InstWord.rd w) (InstWord.opcode w) = w := by
  simp [encodeJ, InstWord.immJ, InstWord.rd, InstWord.opcode, regBits, BitVec.extractLsb'_append_eq_of_le, BitVec.extractLsb'_append_eq_of_add_le,
    BitVec.extractLsb'_append_extractLsb'_eq_extractLsb', -BitVec.toFin_extractLsb', -BitVec.toFin_ushiftRight, -Nat.reduceAdd]

@[simp] theorem regBits_rs1 (w : Word) : regBits (InstWord.rs1 w) = InstWord.zimm w := rfl

@[simp] theorem regBits_rs2 (w : Word) : regBits (InstWord.rs2 w) = InstWord.shamt w := rfl

/-! ### Which words skip the whole-word test -/

/-- A word of another opcode is neither ECALL nor EBREAK. -/
theorem decode_of_opcode (w : Word) (h : InstWord.opcode w ≠ 0x73#7) : decode w = decodeByOpcode w := by
  have h1 : w ≠ ecallWord := by rintro rfl; exact h (by decide)
  have h2 : w ≠ ebreakWord := by rintro rfl; exact h (by decide)
  simp [decode, h1, h2]

/-- A word whose funct3 is not 0 is neither ECALL nor EBREAK. -/
theorem decode_of_funct3 (w : Word) (h : InstWord.funct3 w ≠ 0#3) : decode w = decodeByOpcode w := by
  have h1 : w ≠ ecallWord := by rintro rfl; exact h (by decide)
  have h2 : w ≠ ebreakWord := by rintro rfl; exact h (by decide)
  simp [decode, h1, h2]

/-! ### Bytes of a word -/

/-- A word's four bytes, put together little-endian, give the word (R213, R221). -/
theorem wordOfBytes_byteOf (w : Word) : wordOfBytes (byteOf w 0) (byteOf w 1) (byteOf w 2) (byteOf w 3) = w := by
  simp [wordOfBytes, byteOf, BitVec.extractLsb'_append_extractLsb'_eq_extractLsb', -Nat.reduceAdd]

end Sys2Proof
end

