-- ==== Sys2Proof/Laws/State.lean ====
section
/-! SUPPORT. One lemma per field of State per update: what each named operation leaves unchanged, and the field it sets. -/

-- one theorem at a time: the checker's memory limit does not hold a stack for each of many theorems at once
set_option Elab.async false

namespace Sys2Proof.Machine

/-! ### writeReg -/

@[simp] theorem State.writeReg_pc (s : State) (r : Reg) (v : Word) : (s.writeReg r v).pc = s.pc := by
  unfold State.writeReg; split <;> rfl
@[simp] theorem State.writeReg_csr (s : State) (r : Reg) (v : Word) : (s.writeReg r v).csr = s.csr := by
  unfold State.writeReg; split <;> rfl
@[simp] theorem State.writeReg_run (s : State) (r : Reg) (v : Word) : (s.writeReg r v).run = s.run := by
  unfold State.writeReg; split <;> rfl
@[simp] theorem State.writeReg_trace (s : State) (r : Reg) (v : Word) : (s.writeReg r v).trace = s.trace := by
  unfold State.writeReg; split <;> rfl
@[simp] theorem State.writeReg_capacity (s : State) (r : Reg) (v : Word) : (s.writeReg r v).capacity = s.capacity := by
  unfold State.writeReg; split <;> rfl
@[simp] theorem State.writeReg_mem (s : State) (r : Reg) (v : Word) : (s.writeReg r v).mem = s.mem := by
  unfold State.writeReg; split <;> rfl
@[simp] theorem State.writeReg_traceOut (s : State) (r : Reg) (v : Word) : (s.writeReg r v).traceOut = s.traceOut := by
  unfold State.writeReg; split <;> rfl

/-! ### clearX0 -/

@[simp] theorem State.clearX0_pc (s : State) : (s.clearX0).pc = s.pc := rfl
@[simp] theorem State.clearX0_csr (s : State) : (s.clearX0).csr = s.csr := rfl
@[simp] theorem State.clearX0_run (s : State) : (s.clearX0).run = s.run := rfl
@[simp] theorem State.clearX0_trace (s : State) : (s.clearX0).trace = s.trace := rfl
@[simp] theorem State.clearX0_capacity (s : State) : (s.clearX0).capacity = s.capacity := rfl
@[simp] theorem State.clearX0_mem (s : State) : (s.clearX0).mem = s.mem := rfl
@[simp] theorem State.clearX0_traceOut (s : State) : (s.clearX0).traceOut = s.traceOut := rfl

/-! ### writeCsr -/

@[simp] theorem State.writeCsr_x (s : State) (a : CsrAddr) (v : Word) : (s.writeCsr a v).x = s.x := rfl
@[simp] theorem State.writeCsr_pc (s : State) (a : CsrAddr) (v : Word) : (s.writeCsr a v).pc = s.pc := rfl
@[simp] theorem State.writeCsr_run (s : State) (a : CsrAddr) (v : Word) : (s.writeCsr a v).run = s.run := rfl
@[simp] theorem State.writeCsr_trace (s : State) (a : CsrAddr) (v : Word) : (s.writeCsr a v).trace = s.trace := rfl
@[simp] theorem State.writeCsr_capacity (s : State) (a : CsrAddr) (v : Word) : (s.writeCsr a v).capacity = s.capacity := rfl
@[simp] theorem State.writeCsr_mem (s : State) (a : CsrAddr) (v : Word) : (s.writeCsr a v).mem = s.mem := rfl
@[simp] theorem State.writeCsr_traceOut (s : State) (a : CsrAddr) (v : Word) : (s.writeCsr a v).traceOut = s.traceOut := rfl

/-! ### writeByte -/

@[simp] theorem State.writeByte_x (s : State) (a : Nat) (b : Byte) : (s.writeByte a b).x = s.x := rfl
@[simp] theorem State.writeByte_pc (s : State) (a : Nat) (b : Byte) : (s.writeByte a b).pc = s.pc := rfl
@[simp] theorem State.writeByte_csr (s : State) (a : Nat) (b : Byte) : (s.writeByte a b).csr = s.csr := rfl
@[simp] theorem State.writeByte_run (s : State) (a : Nat) (b : Byte) : (s.writeByte a b).run = s.run := rfl
@[simp] theorem State.writeByte_trace (s : State) (a : Nat) (b : Byte) : (s.writeByte a b).trace = s.trace := rfl
@[simp] theorem State.writeByte_capacity (s : State) (a : Nat) (b : Byte) : (s.writeByte a b).capacity = s.capacity := rfl
@[simp] theorem State.writeByte_traceOut (s : State) (a : Nat) (b : Byte) : (s.writeByte a b).traceOut = s.traceOut := rfl

/-! ### halt -/

@[simp] theorem State.halt_x (s : State) (r : HaltReason) : (s.halt r).x = s.x := rfl
@[simp] theorem State.halt_pc (s : State) (r : HaltReason) : (s.halt r).pc = s.pc := rfl
@[simp] theorem State.halt_csr (s : State) (r : HaltReason) : (s.halt r).csr = s.csr := rfl
@[simp] theorem State.halt_trace (s : State) (r : HaltReason) : (s.halt r).trace = s.trace := rfl
@[simp] theorem State.halt_capacity (s : State) (r : HaltReason) : (s.halt r).capacity = s.capacity := rfl
@[simp] theorem State.halt_mem (s : State) (r : HaltReason) : (s.halt r).mem = s.mem := rfl
@[simp] theorem State.halt_traceOut (s : State) (r : HaltReason) : (s.halt r).traceOut = s.traceOut := rfl

/-! ### emit -/

@[simp] theorem State.emit_x (s : State) (r : TraceRecord) : (s.emit r).x = s.x := by
  unfold State.emit; split <;> rfl
@[simp] theorem State.emit_pc (s : State) (r : TraceRecord) : (s.emit r).pc = s.pc := by
  unfold State.emit; split <;> rfl
@[simp] theorem State.emit_csr (s : State) (r : TraceRecord) : (s.emit r).csr = s.csr := by
  unfold State.emit; split <;> rfl
@[simp] theorem State.emit_run (s : State) (r : TraceRecord) : (s.emit r).run = s.run := by
  unfold State.emit; split <;> rfl
@[simp] theorem State.emit_trace (s : State) (r : TraceRecord) : (s.emit r).trace = s.trace := by
  unfold State.emit; split <;> rfl
@[simp] theorem State.emit_capacity (s : State) (r : TraceRecord) : (s.emit r).capacity = s.capacity := by
  unfold State.emit; split <;> rfl
@[simp] theorem State.emit_mem (s : State) (r : TraceRecord) : (s.emit r).mem = s.mem := by
  unfold State.emit; split <;> rfl

/-! ### hostReset -/

@[simp] theorem State.hostReset_trace (s : State) (p : Word) : (s.hostReset p).trace = s.trace := rfl
@[simp] theorem State.hostReset_capacity (s : State) (p : Word) : (s.hostReset p).capacity = s.capacity := rfl
@[simp] theorem State.hostReset_mem (s : State) (p : Word) : (s.hostReset p).mem = s.mem := rfl
@[simp] theorem State.hostReset_traceOut (s : State) (p : Word) : (s.hostReset p).traceOut = s.traceOut := rfl

/-! ### setTrace -/

@[simp] theorem State.setTrace_x (s : State) (b : Bool) : (s.setTrace b).x = s.x := rfl
@[simp] theorem State.setTrace_pc (s : State) (b : Bool) : (s.setTrace b).pc = s.pc := rfl
@[simp] theorem State.setTrace_csr (s : State) (b : Bool) : (s.setTrace b).csr = s.csr := rfl
@[simp] theorem State.setTrace_run (s : State) (b : Bool) : (s.setTrace b).run = s.run := rfl
@[simp] theorem State.setTrace_capacity (s : State) (b : Bool) : (s.setTrace b).capacity = s.capacity := rfl
@[simp] theorem State.setTrace_mem (s : State) (b : Bool) : (s.setTrace b).mem = s.mem := rfl
@[simp] theorem State.setTrace_traceOut (s : State) (b : Bool) : (s.setTrace b).traceOut = s.traceOut := rfl

@[simp] theorem State.halt_run (s : State) (r : HaltReason) : (s.halt r).run = .halted r := rfl
@[simp] theorem State.setTrace_trace (s : State) (b : Bool) : (s.setTrace b).trace = b := rfl
@[simp] theorem State.hostReset_pc (s : State) (p : Word) : (s.hostReset p).pc = p := rfl
@[simp] theorem State.hostReset_run (s : State) (p : Word) : (s.hostReset p).run = .running := rfl
@[simp] theorem State.hostReset_csr (s : State) (p : Word) : (s.hostReset p).csr = [] := rfl
@[simp] theorem State.writeByte_mem (s : State) (a : Nat) (b : Byte) :
    (s.writeByte a b).mem = Store.write unlistedByte s.mem a b := rfl
@[simp] theorem State.writeCsr_csr (s : State) (a : CsrAddr) (v : Word) :
    (s.writeCsr a v).csr = Store.write 0 s.csr a.toNat v := rfl

/-! ### writeBytes -/

@[simp] theorem State.writeBytes_x (s : State) (a : Nat) (bs : List Byte) : (s.writeBytes a bs).x = s.x := by
  induction bs generalizing s a with
  | nil => rfl
  | cons b rest ih => exact (ih _ _).trans (s.writeByte_x a b)

@[simp] theorem State.writeBytes_pc (s : State) (a : Nat) (bs : List Byte) : (s.writeBytes a bs).pc = s.pc := by
  induction bs generalizing s a with
  | nil => rfl
  | cons b rest ih => exact (ih _ _).trans (s.writeByte_pc a b)

@[simp] theorem State.writeBytes_csr (s : State) (a : Nat) (bs : List Byte) : (s.writeBytes a bs).csr = s.csr := by
  induction bs generalizing s a with
  | nil => rfl
  | cons b rest ih => exact (ih _ _).trans (s.writeByte_csr a b)

@[simp] theorem State.writeBytes_run (s : State) (a : Nat) (bs : List Byte) : (s.writeBytes a bs).run = s.run := by
  induction bs generalizing s a with
  | nil => rfl
  | cons b rest ih => exact (ih _ _).trans (s.writeByte_run a b)

@[simp] theorem State.writeBytes_trace (s : State) (a : Nat) (bs : List Byte) : (s.writeBytes a bs).trace = s.trace := by
  induction bs generalizing s a with
  | nil => rfl
  | cons b rest ih => exact (ih _ _).trans (s.writeByte_trace a b)

@[simp] theorem State.writeBytes_capacity (s : State) (a : Nat) (bs : List Byte) : (s.writeBytes a bs).capacity = s.capacity := by
  induction bs generalizing s a with
  | nil => rfl
  | cons b rest ih => exact (ih _ _).trans (s.writeByte_capacity a b)

@[simp] theorem State.writeBytes_traceOut (s : State) (a : Nat) (bs : List Byte) : (s.writeBytes a bs).traceOut = s.traceOut := by
  induction bs generalizing s a with
  | nil => rfl
  | cons b rest ih => exact (ih _ _).trans (s.writeByte_traceOut a b)

/-! ### commit -/

@[simp] theorem State.commit_run (s : State) (wb : Option (Reg × Word)) (csrw : Option (CsrAddr × Word)) (n : Word) :
    (s.commit wb csrw n).run = s.run := by
  cases wb <;> cases csrw <;> simp [State.commit]

@[simp] theorem State.commit_trace (s : State) (wb : Option (Reg × Word)) (csrw : Option (CsrAddr × Word)) (n : Word) :
    (s.commit wb csrw n).trace = s.trace := by
  cases wb <;> cases csrw <;> simp [State.commit]

@[simp] theorem State.commit_capacity (s : State) (wb : Option (Reg × Word)) (csrw : Option (CsrAddr × Word)) (n : Word) :
    (s.commit wb csrw n).capacity = s.capacity := by
  cases wb <;> cases csrw <;> simp [State.commit]

@[simp] theorem State.commit_mem (s : State) (wb : Option (Reg × Word)) (csrw : Option (CsrAddr × Word)) (n : Word) :
    (s.commit wb csrw n).mem = s.mem := by
  cases wb <;> cases csrw <;> simp [State.commit]

@[simp] theorem State.commit_traceOut (s : State) (wb : Option (Reg × Word)) (csrw : Option (CsrAddr × Word)) (n : Word) :
    (s.commit wb csrw n).traceOut = s.traceOut := by
  cases wb <;> cases csrw <;> simp [State.commit]

@[simp] theorem State.commit_pc (s : State) (wb : Option (Reg × Word)) (csrw : Option (CsrAddr × Word)) (n : Word) :
    (s.commit wb csrw n).pc = n := rfl

end Sys2Proof.Machine
end

