-- ==== Sys2Proof/Laws/Store.lean ====
section
/-! SUPPORT. The laws of the sparse store: a read after a write at the same key gives the value written (in canonical form),
a write leaves every other key alone, a write keeps the canonical form, and equal contents in canonical form are equal
lists. -/

-- one theorem at a time: the checker's memory limit does not hold a stack for each of many theorems at once
set_option Elab.async false

namespace Sys2Proof.Machine

variable {α : Type} [DecidableEq α] {d : α}

theorem Store.read_cons_self (a : Nat) (v : α) (rest : List (Nat × α)) (h : Store.read d rest a = d) :
    Store.read d (Store.cons d a v rest) a = v := by
  unfold Store.cons
  split
  · simp_all
  · simp [Store.read]

theorem Store.read_cons_ne (a b : Nat) (v : α) (rest : List (Nat × α)) (h : b ≠ a) :
    Store.read d (Store.cons d a v rest) b = Store.read d rest b := by
  unfold Store.cons
  split
  · rfl
  · simp [Store.read, Ne.symm h]

/-- Nothing is listed below the keys of a canonical list. -/
theorem Store.read_below {hi : Nat} (l : List (Nat × α)) (lo a : Nat) (h : Store.wfFrom d hi lo l = true) (ha : a < lo) :
    Store.read d l a = d := by
  induction l generalizing lo with
  | nil => rfl
  | cons p rest ih =>
    obtain ⟨k, v⟩ := p
    simp [Store.wfFrom] at h
    have hk : k ≠ a := by omega
    simp only [Store.read, hk, if_false]
    exact ih (k + 1) h.2 (by omega)

/-- Nothing is listed at or above the bound of a canonical list. -/
theorem Store.read_above {hi : Nat} (l : List (Nat × α)) (lo a : Nat) (h : Store.wfFrom d hi lo l = true) (ha : hi ≤ a) :
    Store.read d l a = d := by
  induction l generalizing lo with
  | nil => rfl
  | cons p rest ih =>
    obtain ⟨k, v⟩ := p
    simp [Store.wfFrom] at h
    have hk : k ≠ a := by omega
    simp only [Store.read, hk, if_false]
    exact ih (k + 1) h.2

theorem Store.read_write_self {hi : Nat} (l : List (Nat × α)) (lo a : Nat) (v : α) (h : Store.wfFrom d hi lo l = true) :
    Store.read d (Store.write d l a v) a = v := by
  induction l generalizing lo with
  | nil => exact Store.read_cons_self a v [] rfl
  | cons p rest ih =>
    obtain ⟨k, w⟩ := p
    have h' := h
    simp [Store.wfFrom] at h
    unfold Store.write
    split
    · rename_i hak
      refine Store.read_cons_self a v _ (Store.read_below (hi := hi) _ k a ?_ hak)
      simp [Store.wfFrom, h]
    · split
      · rename_i hak
        subst hak
        exact Store.read_cons_self a v _ (Store.read_below (hi := hi) _ (a + 1) a h.2 (by omega))
      · rename_i h1 h2
        simp only [Store.read, Ne.symm h2, if_false]
        exact ih (k + 1) h.2

/-- A write leaves every other key as it was, canonical or not. -/
theorem Store.read_write_ne (l : List (Nat × α)) (a b : Nat) (v : α) (h : b ≠ a) :
    Store.read d (Store.write d l a v) b = Store.read d l b := by
  induction l with
  | nil => exact Store.read_cons_ne a b v [] h
  | cons p rest ih =>
    obtain ⟨k, w⟩ := p
    unfold Store.write
    split
    · exact Store.read_cons_ne a b v _ h
    · split
      · rename_i hak
        subst hak
        rw [Store.read_cons_ne a b v _ h]
        simp [Store.read, Ne.symm h]
      · simp only [Store.read, ih]

theorem Store.wfFrom_mono {hi : Nat} (l : List (Nat × α)) (lo lo' : Nat) (h : Store.wfFrom d hi lo l = true) (hlo : lo' ≤ lo) :
    Store.wfFrom d hi lo' l = true := by
  cases l with
  | nil => rfl
  | cons p rest =>
    simp [Store.wfFrom] at h ⊢
    exact ⟨⟨⟨by omega, h.1.1.2⟩, h.1.2⟩, h.2⟩

/-- A larger bound on the keys keeps the form. -/
theorem Store.wfFrom_mono_hi {hi hi' : Nat} (l : List (Nat × α)) (lo : Nat) (h : Store.wfFrom d hi lo l = true)
    (hle : hi ≤ hi') : Store.wfFrom d hi' lo l = true := by
  induction l generalizing lo with
  | nil => rfl
  | cons p rest ih =>
    simp only [Store.wfFrom, Bool.and_eq_true, decide_eq_true_eq] at h ⊢
    exact ⟨⟨⟨h.1.1.1, Nat.lt_of_lt_of_le h.1.1.2 hle⟩, h.1.2⟩, ih _ h.2⟩

theorem Store.wfFrom_cons {hi : Nat} (a : Nat) (v : α) (rest : List (Nat × α)) (lo : Nat) (hlo : lo ≤ a) (hhi : a < hi)
    (h : Store.wfFrom d hi (a + 1) rest = true) : Store.wfFrom d hi lo (Store.cons d a v rest) = true := by
  unfold Store.cons
  split
  · exact Store.wfFrom_mono rest (a + 1) lo h (by omega)
  · simp_all [Store.wfFrom]

/-- A write within the bound keeps the canonical form. -/
theorem Store.write_wfFrom {hi : Nat} (l : List (Nat × α)) (lo a : Nat) (v : α) (h : Store.wfFrom d hi lo l = true)
    (hlo : lo ≤ a) (hhi : a < hi) : Store.wfFrom d hi lo (Store.write d l a v) = true := by
  induction l generalizing lo with
  | nil => exact Store.wfFrom_cons a v [] lo hlo hhi rfl
  | cons p rest ih =>
    obtain ⟨k, w⟩ := p
    simp [Store.wfFrom] at h
    unfold Store.write
    split
    · refine Store.wfFrom_cons a v _ lo hlo hhi ?_
      simp [Store.wfFrom, h]
      omega
    · split
      · rename_i hak
        subst hak
        exact Store.wfFrom_cons a v rest lo hlo hhi h.2
      · have := ih (k + 1) h.2 (by omega)
        simp [Store.wfFrom, h, this]

/-- Canonical lists with the same contents are the same list. -/
theorem Store.ext_of_wfFrom {hi : Nat} (l m : List (Nat × α)) (lo : Nat) (hl : Store.wfFrom d hi lo l = true)
    (hm : Store.wfFrom d hi lo m = true) (h : ∀ a, Store.read d l a = Store.read d m a) : l = m := by
  induction l generalizing m lo with
  | nil =>
    cases m with
    | nil => rfl
    | cons p rest =>
      have := h p.1
      simp_all [Store.wfFrom, Store.read]
  | cons p rest ih =>
    obtain ⟨k, v⟩ := p
    simp [Store.wfFrom] at hl
    cases m with
    | nil => simpa [Store.read, hl] using h k
    | cons q rest' =>
      obtain ⟨k', v'⟩ := q
      simp [Store.wfFrom] at hm
      have hkk : k = k' := by
        rcases Nat.lt_trichotomy k k' with hlt | heq | hgt
        · have h1 := h k
          have h2 : Store.read d rest' k = d := Store.read_below (hi := hi) rest' (k' + 1) k hm.2 (by omega)
          simp [Store.read, h2, Nat.ne_of_gt hlt, hl] at h1
        · exact heq
        · have h1 := h k'
          have h2 : Store.read d rest k' = d := Store.read_below (hi := hi) rest (k + 1) k' hl.2 (by omega)
          simp [Store.read, h2, Nat.ne_of_gt hgt] at h1
          exact absurd h1.symm hm.1.2
      subst hkk
      have hv : v = v' := by simpa [Store.read] using h k
      subst hv
      congr 1
      refine ih rest' (k + 1) hl.2 hm.2 fun a => ?_
      by_cases hka : k = a
      · subst hka
        rw [Store.read_below (hi := hi) rest (k + 1) k hl.2 (by omega),
          Store.read_below (hi := hi) rest' (k + 1) k hm.2 (by omega)]
      · simpa [Store.read, hka] using h a

end Sys2Proof.Machine
end

