-- ==== Sys2Proof/Laws/Ops.lean ====
section
/-! SUPPORT. The laws of the named operations of Machine/Ops.lean: what registers, CSRs and bytes read as after each update,
what the access check answers, and what memory reads and writes give. -/

-- one theorem at a time: the checker's memory limit does not hold a stack for each of many theorems at once
set_option Elab.async false

namespace Sys2Proof.Machine

/-! ### Reads do not see the other fields -/

theorem State.readReg_of_x {s t : State} (h : t.x = s.x) (r : Reg) : t.readReg r = s.readReg r := by
  simp [State.readReg, h]

theorem State.readCsr_of_csr {s t : State} (h : t.csr = s.csr) (a : CsrAddr) : t.readCsr a = s.readCsr a := by
  simp [State.readCsr, h]

theorem State.readByte_of_mem {s t : State} (h : t.mem = s.mem) (a : Nat) : t.readByte a = s.readByte a := by
  simp [State.readByte, h]

/-! ### Registers -/

@[simp] theorem State.readReg_zero (s : State) : s.readReg 0 = 0 := rfl

theorem State.readReg_writeReg (s : State) (rd r : Reg) (v : Word) :
    (s.writeReg rd v).readReg r = if r = rd ∧ rd ≠ 0 then v else s.readReg r := by
  unfold State.writeReg State.readReg
  by_cases hd : rd = 0
  · simp [hd]
  · by_cases hr : r = 0
    · subst hr; simp [hd, Ne.symm hd]
    · by_cases he : r = rd
      · subst he; simp [hd]
      · have hne : (rd : Nat) ≠ (r : Nat) := fun h => he (Fin.ext h.symm)
        simp [hd, hr, he, hne]

@[simp] theorem State.readReg_clearX0 (s : State) (r : Reg) : s.clearX0.readReg r = s.readReg r := by
  unfold State.clearX0 State.readReg
  by_cases hr : r = 0
  · simp [hr]
  · have hne : (0 : Nat) ≠ (r : Nat) := fun h => hr (Fin.ext h.symm)
    simp [hr, hne]

@[simp] theorem State.clearX0_cell (s : State) : s.clearX0.x[0] = 0 := by simp [State.clearX0]

/-! ### The CSR file -/

theorem State.readCsr_writeCsr_ne (s : State) (a b : CsrAddr) (v : Word) (h : b ≠ a) :
    (s.writeCsr a v).readCsr b = s.readCsr b :=
  Store.read_write_ne _ _ _ _ fun hn => h (BitVec.eq_of_toNat_eq hn)

theorem State.readCsr_writeCsr_self (s : State) (a : CsrAddr) (v : Word) (h : CsrFile.wf s.csr = true) :
    (s.writeCsr a v).readCsr a = v :=
  Store.read_write_self _ 0 _ _ h

/-! ### commit -/

theorem State.commit_cell (s : State) (wb : Option (Reg × Word)) (csrw : Option (CsrAddr × Word)) (n : Word) :
    (s.commit wb csrw n).x[0] = 0 := by
  cases wb <;> cases csrw <;> simp [State.commit]

theorem State.readReg_commit_some (s : State) (rd r : Reg) (v : Word) (csrw : Option (CsrAddr × Word)) (n : Word) :
    (s.commit (some (rd, v)) csrw n).readReg r = if r = rd ∧ rd ≠ 0 then v else s.readReg r := by
  rw [← State.readReg_writeReg, ← State.readReg_clearX0 (s.writeReg rd v)]
  exact State.readReg_of_x (by cases csrw <;> rfl) r

theorem State.readReg_commit_none (s : State) (r : Reg) (csrw : Option (CsrAddr × Word)) (n : Word) :
    (s.commit none csrw n).readReg r = s.readReg r := by
  rw [← State.readReg_clearX0 s]
  exact State.readReg_of_x (by cases csrw <;> rfl) r

theorem State.commit_csr_none (s : State) (wb : Option (Reg × Word)) (n : Word) : (s.commit wb none n).csr = s.csr := by
  cases wb <;> simp [State.commit]

theorem State.commit_csr_some (s : State) (wb : Option (Reg × Word)) (a : CsrAddr) (v n : Word) :
    (s.commit wb (some (a, v)) n).csr = Store.write 0 s.csr a.toNat v := by
  cases wb <;> simp [State.commit]

@[simp] theorem State.readCsr_commit_none (s : State) (wb : Option (Reg × Word)) (n : Word) (a : CsrAddr) :
    (s.commit wb none n).readCsr a = s.readCsr a :=
  State.readCsr_of_csr (s.commit_csr_none wb n) a

@[simp] theorem State.readByte_commit (s : State) (wb : Option (Reg × Word)) (csrw : Option (CsrAddr × Word)) (n : Word)
    (a : Nat) : (s.commit wb csrw n).readByte a = s.readByte a :=
  State.readByte_of_mem (s.commit_mem wb csrw n) a

/-! ### Bytes of memory -/

theorem State.readByte_writeByte_ne (s : State) (a b : Nat) (v : Byte) (h : b ≠ a) :
    (s.writeByte a v).readByte b = s.readByte b :=
  Store.read_write_ne _ _ _ _ h

theorem State.readByte_writeByte_self (s : State) (a : Nat) (v : Byte) (h : Memory.wf s.capacity s.mem = true) :
    (s.writeByte a v).readByte a = v :=
  Store.read_write_self _ 0 _ _ h

theorem State.writeByte_wf (s : State) (a : Nat) (v : Byte) (h : Memory.wf s.capacity s.mem = true) (ha : a < s.capacity) :
    Memory.wf (s.writeByte a v).capacity (s.writeByte a v).mem = true :=
  Store.write_wfFrom _ 0 _ _ h (Nat.zero_le _) ha

/-- A write of bytes leaves every byte outside the range as it was. -/
theorem State.readByte_writeBytes_out (s : State) (a b : Nat) (bs : List Byte) (h : b < a ∨ a + bs.length ≤ b) :
    (s.writeBytes a bs).readByte b = s.readByte b := by
  induction bs generalizing s a with
  | nil => rfl
  | cons v rest ih =>
    simp only [List.length_cons] at h
    rw [State.writeBytes, ih _ _ (by omega), State.readByte_writeByte_ne _ _ _ _ (by omega)]

/-- A write of bytes within the capacity keeps memory's canonical form. -/
theorem State.writeBytes_wf (s : State) (a : Nat) (bs : List Byte) (h : Memory.wf s.capacity s.mem = true)
    (ha : a + bs.length ≤ s.capacity) : Memory.wf s.capacity (s.writeBytes a bs).mem = true := by
  induction bs generalizing s a with
  | nil => exact h
  | cons v rest ih =>
    simp only [List.length_cons] at ha
    exact ih (s.writeByte a v) (a + 1) (s.writeByte_wf a v h (by omega)) (by simp; omega)

/-- Within the range, each byte reads as it was written. -/
theorem State.readByte_writeBytes_in (s : State) (a k : Nat) (bs : List Byte) (h : Memory.wf s.capacity s.mem = true)
    (ha : a + bs.length ≤ s.capacity) (hk : k < bs.length) : (s.writeBytes a bs).readByte (a + k) = bs[k] := by
  induction bs generalizing s a k with
  | nil => simp at hk
  | cons v rest ih =>
    simp only [List.length_cons] at ha hk
    have hwf := s.writeByte_wf a v h (by omega)
    cases k with
    | zero =>
      rw [State.writeBytes, State.readByte_writeBytes_out _ _ _ _ (by omega)]
      exact State.readByte_writeByte_self s a v h
    | succ j =>
      rw [State.writeBytes, show a + (j + 1) = a + 1 + j by omega, ih _ _ j hwf (by simp; omega) (by omega)]
      rfl

/-! ### The access check and the memory port -/

theorem checkAccess_ok {capacity : Nat} {addr : Word} {size : Nat} (hal : addr.toNat % size = 0)
    (hin : addr.toNat + size ≤ capacity) : checkAccess capacity addr size = .ok () := by
  simp [checkAccess, hal, Nat.not_lt.mpr hin]

theorem checkAccess_misaligned {capacity : Nat} {addr : Word} {size : Nat} (h : addr.toNat % size ≠ 0) :
    checkAccess capacity addr size = .error (.misaligned addr size) := by
  simp [checkAccess, h]

theorem checkAccess_outOfRange {capacity : Nat} {addr : Word} {size : Nat} (hal : addr.toNat % size = 0)
    (h : capacity < addr.toNat + size) : checkAccess capacity addr size = .error (.outOfRange addr size capacity) := by
  simp [checkAccess, hal, h]

/-- The check fails with one of two reasons, and passes only for an aligned access within the capacity. -/
theorem checkAccess_cases (capacity : Nat) (addr : Word) (size : Nat) :
    (checkAccess capacity addr size = .ok () ∧ addr.toNat % size = 0 ∧ addr.toNat + size ≤ capacity) ∨
    (∃ r, checkAccess capacity addr size = .error r ∧ r.fatal = true) := by
  unfold checkAccess
  split
  · exact .inr ⟨_, rfl, rfl⟩
  · split
    · exact .inr ⟨_, rfl, rfl⟩
    · exact .inl ⟨rfl, by omega, by omega⟩

/-! ### The canonical forms are kept -/

theorem Memory.wf_mono {c c' : Nat} {mem : Memory} (h : Memory.wf c mem = true) (hle : c ≤ c') : Memory.wf c' mem = true :=
  Store.wfFrom_mono_hi mem 0 h hle

/-- A checked write of `bytes` that succeeds keeps memory's canonical form; memWrite8, memWrite16 and memWrite32 are such. -/
theorem State.checkedWrite_wf {s t : State} {addr : Word} {bytes : List Byte} (h : Memory.wf s.capacity s.mem = true)
    (ht : ((checkAccess s.capacity addr bytes.length).map fun _ => s.writeBytes addr.toNat bytes) = .ok t) :
    Memory.wf t.capacity t.mem = true := by
  obtain ⟨hc, -, hin⟩ | ⟨r, hc, -⟩ := checkAccess_cases s.capacity addr bytes.length
  · rw [hc] at ht
    cases ht
    rw [State.writeBytes_capacity]
    exact s.writeBytes_wf _ _ h hin
  · rw [hc] at ht
    cases ht

theorem State.memWrite8_wf {s t : State} {addr v : Word} (h : Memory.wf s.capacity s.mem = true)
    (ht : s.memWrite8 addr v = .ok t) : Memory.wf t.capacity t.mem = true :=
  State.checkedWrite_wf (bytes := [_]) h ht

theorem State.memWrite16_wf {s t : State} {addr v : Word} (h : Memory.wf s.capacity s.mem = true)
    (ht : s.memWrite16 addr v = .ok t) : Memory.wf t.capacity t.mem = true :=
  State.checkedWrite_wf (bytes := [_, _]) h ht

theorem State.memWrite32_wf {s t : State} {addr v : Word} (h : Memory.wf s.capacity s.mem = true)
    (ht : s.memWrite32 addr v = .ok t) : Memory.wf t.capacity t.mem = true :=
  State.checkedWrite_wf (bytes := [_, _, _, _]) h ht

theorem State.loadBytes_wf {s t : State} {bytes : List Byte} {base : Word} (h : Memory.wf s.capacity s.mem = true)
    (ht : s.loadBytes bytes base = .ok t) : Memory.wf t.capacity t.mem = true := by
  unfold State.loadBytes at ht
  split at ht
  · cases ht
  · cases ht
    rw [State.writeBytes_capacity]
    exact s.writeBytes_wf _ _ h (by omega)

theorem State.placeWord_wf (s : State) (word : Word) (h : Memory.wf s.capacity s.mem = true) :
    Memory.wf (s.placeWord word).capacity (s.placeWord word).mem = true := by
  unfold State.placeWord
  rw [State.writeBytes_capacity]
  exact State.writeBytes_wf _ _ _ (Memory.wf_mono h (Nat.le_max_left _ _)) (Nat.le_max_right _ _)

theorem State.writeCsr_wf (s : State) (a : CsrAddr) (v : Word) (h : CsrFile.wf s.csr = true) :
    CsrFile.wf (s.writeCsr a v).csr = true :=
  Store.write_wfFrom _ 0 _ _ h (Nat.zero_le _) a.isLt

theorem State.reset_memory_wf : Memory.wf State.reset.capacity State.reset.mem = true := rfl

theorem State.reset_csr_wf : CsrFile.wf State.reset.csr = true := rfl

end Sys2Proof.Machine
end

