-- ==== Sys2Proof/Laws/Exec.lean ====
section
/-! SUPPORT. What an instruction and a step can do, said once: every instruction answers a next state, which is either the
state before with only the run state changed, or a commit over the state before with at most some bytes written. The
provers cite these and do not unfold exec or step. -/

-- one theorem at a time: the checker's memory limit does not hold a stack for each of many theorems at once
set_option Elab.async false

namespace Sys2Proof.Machine

/-- The bytes a completed instruction has written lie within the capacity, and an instruction that writes bytes stages no
register and no CSR write (spec/20_memory.md R240, spec/10_state.md R163). -/
structure Effect (s : State) where
  addr : Nat
  bytes : List Byte
  wb : Option (Reg × Word)
  csrw : Option (CsrAddr × Word)
  nextPc : Word
  inRange : addr + bytes.length ≤ s.capacity ∨ bytes = []
  storeOnly : bytes ≠ [] → wb = none ∧ csrw = none

/-- The state an effect leaves. -/
def Effect.apply {s : State} (e : Effect s) : State := (s.writeBytes e.addr e.bytes).commit e.wb e.csrw e.nextPc

/-- An effect on registers, CSRs and the pc alone. -/
def Effect.ofCommit (s : State) (wb : Option (Reg × Word)) (csrw : Option (CsrAddr × Word)) (n : Word) : Effect s :=
  ⟨0, [], wb, csrw, n, .inr rfl, fun h => absurd rfl h⟩

theorem Effect.ofCommit_apply (s : State) (wb : Option (Reg × Word)) (csrw : Option (CsrAddr × Word)) (n : Word) :
    (Effect.ofCommit s wb csrw n).apply = s.commit wb csrw n := rfl

/-- A load completes or halts. -/
theorem State.finishLoad_cases (s : State) (rd : Reg) (m : Except HaltReason Word) :
    (∃ v, m = .ok v ∧ s.finishLoad rd m = .next (s.commit (some (rd, v)) none s.pcNext)) ∨
    (∃ r, m = .error r ∧ s.finishLoad rd m = .next (s.halt r)) := by
  cases m with
  | ok v => exact .inl ⟨v, rfl, rfl⟩
  | error r => exact .inr ⟨r, rfl, rfl⟩

/-- A store of `bytes` completes or halts. -/
theorem State.finishStore_cases (s : State) (addr : Word) (bytes : List Byte) :
    (addr.toNat % bytes.length = 0 ∧ addr.toNat + bytes.length ≤ s.capacity ∧
      s.finishStore ((checkAccess s.capacity addr bytes.length).map fun _ => s.writeBytes addr.toNat bytes) =
        .next ((s.writeBytes addr.toNat bytes).commit none none s.pcNext)) ∨
    (∃ r, r.fatal = true ∧
      s.finishStore ((checkAccess s.capacity addr bytes.length).map fun _ => s.writeBytes addr.toNat bytes) =
        .next (s.halt r)) := by
  obtain ⟨h, hal, hin⟩ | ⟨r, h, hr⟩ := checkAccess_cases s.capacity addr bytes.length
  · exact .inl ⟨hal, hin, by rw [h]; rfl⟩
  · exact .inr ⟨r, hr, by rw [h]; rfl⟩

/-- Every instruction answers a next state: a halt, or an effect. -/
theorem exec_cases (i : Instr) (s : State) :
    (∃ r, exec i s = .next (s.halt r)) ∨ (∃ e : Effect s, exec i s = .next e.apply) := by
  have hload : ∀ rd m, (∃ r, s.finishLoad rd m = .next (s.halt r)) ∨ (∃ e : Effect s, s.finishLoad rd m = .next e.apply) := by
    intro rd m
    obtain ⟨v, -, h⟩ | ⟨r, -, h⟩ := s.finishLoad_cases rd m
    · exact .inr ⟨Effect.ofCommit s _ _ _, h⟩
    · exact .inl ⟨r, h⟩
  have hstore : ∀ addr bytes,
      (∃ r, s.finishStore ((checkAccess s.capacity addr bytes.length).map fun _ => s.writeBytes addr.toNat bytes)
        = .next (s.halt r)) ∨
      (∃ e : Effect s, s.finishStore ((checkAccess s.capacity addr bytes.length).map fun _ => s.writeBytes addr.toNat bytes)
        = .next e.apply) := by
    intro addr bytes
    obtain ⟨-, hin, h⟩ | ⟨r, -, h⟩ := s.finishStore_cases addr bytes
    · exact .inr ⟨⟨addr.toNat, bytes, none, none, s.pcNext, .inl hin, fun _ => ⟨rfl, rfl⟩⟩, h⟩
    · exact .inl ⟨r, h⟩
  cases i
  case ecall => exact .inl ⟨_, rfl⟩
  case ebreak => exact .inl ⟨_, rfl⟩
  case lb => exact hload _ _
  case lh => exact hload _ _
  case lw => exact hload _ _
  case lbu => exact hload _ _
  case lhu => exact hload _ _
  case sb => exact hstore _ [_]
  case sh => exact hstore _ [_, _]
  case sw => exact hstore _ [_, _, _, _]
  all_goals exact .inr ⟨Effect.ofCommit s _ _ _, rfl⟩

/-- A Running core always steps to a next state: it halts with the state otherwise unchanged but for a trace record, or the
effect of the decoded instruction is applied and its record emitted. -/
theorem step_cases (s : State) (h : s.run = .running) :
    (∃ r, s.fetch = .error r ∧ step s = .next (s.halt r)) ∨
    (∃ word err, s.fetch = .ok word ∧ decode word = .error err ∧
      step s = .next ((s.emit (illegalRecord s.pc word)).halt (.illegalInstruction s.pc word))) ∨
    (∃ word i t, s.fetch = .ok word ∧ decode word = .ok i ∧ exec i s = .next t ∧
      step s = .next (traceInstr s word i t)) := by
  unfold step
  rw [h]
  cases hf : s.fetch with
  | error r => exact .inl ⟨r, rfl, rfl⟩
  | ok word =>
    cases hd : decode word with
    | error e => exact .inr (.inl ⟨word, e, rfl, hd, by simp [hd, State.illegalWord, State.raiseHalt]⟩)
    | ok i =>
      obtain ⟨r, he⟩ | ⟨e, he⟩ := exec_cases i s
      · exact .inr (.inr ⟨word, i, _, rfl, hd, he, by simp [hd, he, State.afterInstr]⟩)
      · exact .inr (.inr ⟨word, i, _, rfl, hd, he, by simp [hd, he, State.afterInstr]⟩)

end Sys2Proof.Machine
end

