-- ==== Sys2Proof/Laws/PerInstr.lean ====
section
/-! SUPPORT. Statements about every instruction as syntax, one lemma per constructor. Family `EncodedOpcode`: the word of an
instruction has the opcode of its group (spec/30_encoding.md R327). -/

-- one theorem at a time: the checker's memory limit does not hold a stack for each of many theorems at once
set_option Elab.async false

namespace Sys2Proof.Laws.EncodedOpcode

/-- The opcode of an instruction's group, from the opcode map R327. -/
def groupOpcode : Instr → BitVec 7
  | .ecall | .ebreak | .csrrw .. | .csrrs .. | .csrrc .. | .csrrwi .. => 0x73#7
  | .csrrsi .. | .csrrci .. => 0x73#7
  | .fence .. | .fenceI .. => 0x0F#7
  | .addi .. | .slti .. | .sltiu .. | .xori .. | .ori .. | .andi .. => 0x13#7
  | .slli .. | .srli .. | .srai .. => 0x13#7
  | .lb .. | .lh .. | .lw .. | .lbu .. | .lhu .. => 0x03#7
  | .sb .. | .sh .. | .sw .. => 0x23#7
  | .jal .. => 0x6F#7
  | .jalr .. => 0x67#7
  | .lui .. => 0x37#7
  | .auipc .. => 0x17#7
  | .beq .. | .bne .. | .blt .. | .bge .. | .bltu .. | .bgeu .. => 0x63#7
  | .add .. | .sub .. | .sll .. | .slt .. | .sltu .. | .xor .. => 0x33#7
  | .srl .. | .sra .. | .or .. | .and .. => 0x33#7

/-- The word of `i` has the opcode of `i`'s group. -/
def Statement (i : Instr) : Prop := InstWord.opcode (encode i) = groupOpcode i

theorem ecall : Statement (.ecall) := by unfold Statement; decide

theorem ebreak : Statement (.ebreak) := by unfold Statement; decide

theorem csrrw (rd : Reg) (csr : CsrAddr) (rs1 : Reg) : Statement (.csrrw rd csr rs1) := by simp [Statement, encode, groupOpcode]

theorem csrrs (rd : Reg) (csr : CsrAddr) (rs1 : Reg) : Statement (.csrrs rd csr rs1) := by simp [Statement, encode, groupOpcode]

theorem csrrc (rd : Reg) (csr : CsrAddr) (rs1 : Reg) : Statement (.csrrc rd csr rs1) := by simp [Statement, encode, groupOpcode]

theorem csrrwi (rd : Reg) (csr : CsrAddr) (zimm : BitVec 5) : Statement (.csrrwi rd csr zimm) := by simp [Statement, encode, groupOpcode]

theorem csrrsi (rd : Reg) (csr : CsrAddr) (zimm : BitVec 5) : Statement (.csrrsi rd csr zimm) := by simp [Statement, encode, groupOpcode]

theorem csrrci (rd : Reg) (csr : CsrAddr) (zimm : BitVec 5) : Statement (.csrrci rd csr zimm) := by simp [Statement, encode, groupOpcode]

theorem fence (hi : BitVec 12) (rs1 : Reg) (funct3 : BitVec 3) (rd : Reg) : Statement (.fence hi rs1 funct3 rd) := by simp [Statement, encode, groupOpcode]

theorem fenceI (hi : BitVec 12) (rs1 rd : Reg) : Statement (.fenceI hi rs1 rd) := by simp [Statement, encode, groupOpcode]

theorem addi (rd rs1 : Reg) (imm : BitVec 12) : Statement (.addi rd rs1 imm) := by simp [Statement, encode, groupOpcode]

theorem slti (rd rs1 : Reg) (imm : BitVec 12) : Statement (.slti rd rs1 imm) := by simp [Statement, encode, groupOpcode]

theorem sltiu (rd rs1 : Reg) (imm : BitVec 12) : Statement (.sltiu rd rs1 imm) := by simp [Statement, encode, groupOpcode]

theorem xori (rd rs1 : Reg) (imm : BitVec 12) : Statement (.xori rd rs1 imm) := by simp [Statement, encode, groupOpcode]

theorem ori (rd rs1 : Reg) (imm : BitVec 12) : Statement (.ori rd rs1 imm) := by simp [Statement, encode, groupOpcode]

theorem andi (rd rs1 : Reg) (imm : BitVec 12) : Statement (.andi rd rs1 imm) := by simp [Statement, encode, groupOpcode]

theorem slli (rd rs1 : Reg) (shamt : BitVec 5) : Statement (.slli rd rs1 shamt) := by simp [Statement, encode, groupOpcode]

theorem srli (rd rs1 : Reg) (shamt : BitVec 5) : Statement (.srli rd rs1 shamt) := by simp [Statement, encode, groupOpcode]

theorem srai (rd rs1 : Reg) (shamt : BitVec 5) : Statement (.srai rd rs1 shamt) := by simp [Statement, encode, groupOpcode]

theorem lb (rd : Reg) (imm : BitVec 12) (rs1 : Reg) : Statement (.lb rd imm rs1) := by simp [Statement, encode, groupOpcode]

theorem lh (rd : Reg) (imm : BitVec 12) (rs1 : Reg) : Statement (.lh rd imm rs1) := by simp [Statement, encode, groupOpcode]

theorem lw (rd : Reg) (imm : BitVec 12) (rs1 : Reg) : Statement (.lw rd imm rs1) := by simp [Statement, encode, groupOpcode]

theorem lbu (rd : Reg) (imm : BitVec 12) (rs1 : Reg) : Statement (.lbu rd imm rs1) := by simp [Statement, encode, groupOpcode]

theorem lhu (rd : Reg) (imm : BitVec 12) (rs1 : Reg) : Statement (.lhu rd imm rs1) := by simp [Statement, encode, groupOpcode]

theorem sb (rs2 : Reg) (imm : BitVec 12) (rs1 : Reg) : Statement (.sb rs2 imm rs1) := by simp [Statement, encode, groupOpcode]

theorem sh (rs2 : Reg) (imm : BitVec 12) (rs1 : Reg) : Statement (.sh rs2 imm rs1) := by simp [Statement, encode, groupOpcode]

theorem sw (rs2 : Reg) (imm : BitVec 12) (rs1 : Reg) : Statement (.sw rs2 imm rs1) := by simp [Statement, encode, groupOpcode]

theorem jal (rd : Reg) (offset : BitVec 21) : Statement (.jal rd offset) := by simp [Statement, encode, groupOpcode]

theorem jalr (rd : Reg) (imm : BitVec 12) (rs1 : Reg) : Statement (.jalr rd imm rs1) := by simp [Statement, encode, groupOpcode]

theorem lui (rd : Reg) (imm20 : BitVec 20) : Statement (.lui rd imm20) := by simp [Statement, encode, groupOpcode]

theorem auipc (rd : Reg) (imm20 : BitVec 20) : Statement (.auipc rd imm20) := by simp [Statement, encode, groupOpcode]

theorem beq (rs1 rs2 : Reg) (offset : BitVec 13) : Statement (.beq rs1 rs2 offset) := by simp [Statement, encode, groupOpcode]

theorem bne (rs1 rs2 : Reg) (offset : BitVec 13) : Statement (.bne rs1 rs2 offset) := by simp [Statement, encode, groupOpcode]

theorem blt (rs1 rs2 : Reg) (offset : BitVec 13) : Statement (.blt rs1 rs2 offset) := by simp [Statement, encode, groupOpcode]

theorem bge (rs1 rs2 : Reg) (offset : BitVec 13) : Statement (.bge rs1 rs2 offset) := by simp [Statement, encode, groupOpcode]

theorem bltu (rs1 rs2 : Reg) (offset : BitVec 13) : Statement (.bltu rs1 rs2 offset) := by simp [Statement, encode, groupOpcode]

theorem bgeu (rs1 rs2 : Reg) (offset : BitVec 13) : Statement (.bgeu rs1 rs2 offset) := by simp [Statement, encode, groupOpcode]

theorem add (rd rs1 rs2 : Reg) : Statement (.add rd rs1 rs2) := by simp [Statement, encode, groupOpcode]

theorem sub (rd rs1 rs2 : Reg) : Statement (.sub rd rs1 rs2) := by simp [Statement, encode, groupOpcode]

theorem sll (rd rs1 rs2 : Reg) : Statement (.sll rd rs1 rs2) := by simp [Statement, encode, groupOpcode]

theorem slt (rd rs1 rs2 : Reg) : Statement (.slt rd rs1 rs2) := by simp [Statement, encode, groupOpcode]

theorem sltu (rd rs1 rs2 : Reg) : Statement (.sltu rd rs1 rs2) := by simp [Statement, encode, groupOpcode]

theorem xor (rd rs1 rs2 : Reg) : Statement (.xor rd rs1 rs2) := by simp [Statement, encode, groupOpcode]

theorem srl (rd rs1 rs2 : Reg) : Statement (.srl rd rs1 rs2) := by simp [Statement, encode, groupOpcode]

theorem sra (rd rs1 rs2 : Reg) : Statement (.sra rd rs1 rs2) := by simp [Statement, encode, groupOpcode]

theorem or (rd rs1 rs2 : Reg) : Statement (.or rd rs1 rs2) := by simp [Statement, encode, groupOpcode]

theorem and (rd rs1 rs2 : Reg) : Statement (.and rd rs1 rs2) := by simp [Statement, encode, groupOpcode]

end Sys2Proof.Laws.EncodedOpcode
end

