-- ==== Sys2Proof/Tests/Slice0.lean ====
section
/-! SUPPORT. The model's own tests, and a witness for every statement that has hypotheses. Every expected value is the
spec's: words and results from spec/95_test_vectors.md (the section is named beside each group), not from the model. -/

-- one theorem at a time: the checker's memory limit does not hold a stack for each of many theorems at once
set_option Elab.async false

namespace Sys2Proof.Tests

open Sys2Proof.Machine Sys2Proof.Claims

/-! ### Well-formedness: an ill-formed term for each check, refused -/

/-- A branch offset whose bit 0 is set. -/
theorem test_wf_refuses_odd_branch : (Instr.beq 1 2 0x0011#13).wf = false ∧ (Instr.bgeu 1 2 0x1FFF#13).wf = false := by decide

/-- A JAL offset whose bit 0 is set. -/
theorem test_wf_refuses_odd_jal : (Instr.jal 1 0x000801#21).wf = false := by decide

/-- A FENCE with FENCE.I's funct3. -/
theorem test_wf_refuses_fence_funct3 : (Instr.fence 0 0 1#3 0).wf = false := by decide

/-- What the checks admit. -/
theorem test_wf_admits : (Instr.beq 1 2 0x1FFE#13).wf = true ∧ (Instr.jal 1 0x1FFFFE#21).wf = true ∧
    (Instr.fence 0xFFF 31 7#3 31).wf = true := by decide

/-! ### Decoding: a word of the spec for every constructor, written out from its encoding -/

theorem test_decode_system :
    decode 0x00000073#32 = .ok .ecall ∧ decode 0x00100073#32 = .ok .ebreak := by decide

theorem test_decode_csr :
    decode 0x340312F3#32 = .ok (.csrrw 5 0x340#12 6) ∧ decode 0x305120F3#32 = .ok (.csrrs 1 0x305#12 2) ∧
    decode 0x300130F3#32 = .ok (.csrrc 1 0x300#12 2) ∧ decode 0x340FD2F3#32 = .ok (.csrrwi 5 0x340#12 31#5) ∧
    decode 0x340AE2F3#32 = .ok (.csrrsi 5 0x340#12 21#5) ∧ decode 0x340FF2F3#32 = .ok (.csrrci 5 0x340#12 31#5) := by decide

theorem test_decode_fence :
    decode 0x8330000F#32 = .ok (.fence 0x833#12 0 0#3 0) ∧ decode 0xFFFFFF8F#32 = .ok (.fence 0xFFF#12 31 7#3 31) ∧
    decode 0x0000100F#32 = .ok (.fenceI 0#12 0 0) := by decide

theorem test_decode_alu_imm :
    decode 0xFFF10093#32 = .ok (.addi 1 2 0xFFF#12) ∧ decode 0x80012093#32 = .ok (.slti 1 2 0x800#12) ∧
    decode 0x00113093#32 = .ok (.sltiu 1 2 1#12) ∧ decode 0x7FF14093#32 = .ok (.xori 1 2 0x7FF#12) ∧
    decode 0x80016093#32 = .ok (.ori 1 2 0x800#12) ∧ decode 0xFF017093#32 = .ok (.andi 1 2 0xFF0#12) := by decide

theorem test_decode_shift_imm :
    decode 0x01F11093#32 = .ok (.slli 1 2 31#5) ∧ decode 0x00415093#32 = .ok (.srli 1 2 4#5) ∧
    decode 0x41F15093#32 = .ok (.srai 1 2 31#5) := by decide

theorem test_decode_loads :
    decode 0xFFF10283#32 = .ok (.lb 5 0xFFF#12 2) ∧ decode 0x00611283#32 = .ok (.lh 5 6#12 2) ∧
    decode 0xFFC12283#32 = .ok (.lw 5 0xFFC#12 2) ∧ decode 0x00014283#32 = .ok (.lbu 5 0#12 2) ∧
    decode 0x00615283#32 = .ok (.lhu 5 6#12 2) := by decide

theorem test_decode_stores :
    decode 0x003101A3#32 = .ok (.sb 3 3#12 2) ∧ decode 0x00311123#32 = .ok (.sh 3 2#12 2) ∧
    decode 0xFE312E23#32 = .ok (.sw 3 0xFFC#12 2) := by decide

theorem test_decode_jumps :
    decode 0x001000EF#32 = .ok (.jal 1 0x000800#21) ∧ decode 0xF01FF06F#32 = .ok (.jal 0 0x1FFF00#21) ∧
    decode 0x800280E7#32 = .ok (.jalr 1 0x800#12 5) := by decide

theorem test_decode_upper_imm :
    decode 0x123450B7#32 = .ok (.lui 1 0x12345#20) ∧ decode 0x80000297#32 = .ok (.auipc 5 0x80000#20) := by decide

theorem test_decode_branches :
    decode 0x00208863#32 = .ok (.beq 1 2 16#13) ∧ decode 0xFE2098E3#32 = .ok (.bne 1 2 0x1FF0#13) ∧
    decode 0x0020C463#32 = .ok (.blt 1 2 8#13) ∧ decode 0x0020D463#32 = .ok (.bge 1 2 8#13) ∧
    decode 0x0020E463#32 = .ok (.bltu 1 2 8#13) ∧ decode 0x0020F463#32 = .ok (.bgeu 1 2 8#13) := by decide

theorem test_decode_alu_reg :
    decode 0x002081B3#32 = .ok (.add 3 1 2) ∧ decode 0x402081B3#32 = .ok (.sub 3 1 2) ∧
    decode 0x002091B3#32 = .ok (.sll 3 1 2) ∧ decode 0x0020A1B3#32 = .ok (.slt 3 1 2) ∧
    decode 0x0020B1B3#32 = .ok (.sltu 3 1 2) ∧ decode 0x0020C1B3#32 = .ok (.xor 3 1 2) ∧
    decode 0x0020D1B3#32 = .ok (.srl 3 1 2) ∧ decode 0x4020D1B3#32 = .ok (.sra 3 1 2) ∧
    decode 0x0020E1B3#32 = .ok (.or 3 1 2) ∧ decode 0x0020F1B3#32 = .ok (.and 3 1 2) := by decide

/-- Every bit of the scattered immediates (section 2.1): the branch's bits 11, 12, 10:5 and 4:1, the JAL's 11, 20, 19:12 and
10:1, the store's two halves. -/
theorem test_decode_scattered_bits :
    decode 0x000000E3#32 = .ok (.beq 0 0 0x0800#13) ∧ decode 0x80000063#32 = .ok (.beq 0 0 0x1000#13) ∧
    decode 0x40000063#32 = .ok (.beq 0 0 0x0400#13) ∧ decode 0x02000063#32 = .ok (.beq 0 0 0x0020#13) ∧
    decode 0x00000863#32 = .ok (.beq 0 0 0x0010#13) ∧ decode 0x00000163#32 = .ok (.beq 0 0 0x0002#13) ∧
    decode 0x0010006F#32 = .ok (.jal 0 0x000800#21) ∧ decode 0x8000006F#32 = .ok (.jal 0 0x100000#21) ∧
    decode 0x0008006F#32 = .ok (.jal 0 0x080000#21) ∧ decode 0x0000106F#32 = .ok (.jal 0 0x001000#21) ∧
    decode 0x4000006F#32 = .ok (.jal 0 0x000400#21) ∧ decode 0x0020006F#32 = .ok (.jal 0 0x000002#21) ∧
    decode 0x80002023#32 = .ok (.sw 0 0x800#12 0) ∧ decode 0x02002023#32 = .ok (.sw 0 0x020#12 0) ∧
    decode 0x00002823#32 = .ok (.sw 0 0x010#12 0) ∧ decode 0x000020A3#32 = .ok (.sw 0 0x001#12 0) := by decide

/-- Words of sections 2.2 to 2.11 that are illegal, each with the check it fails. -/
theorem test_decode_illegal :
    decode 0x00000000#32 = .error (.unknownOpcode 0#7) ∧ decode 0xFFFFFFFF#32 = .error (.unknownOpcode 0x7F#7) ∧
    decode 0x0000002F#32 = .error (.unknownOpcode 0x2F#7) ∧ decode 0x30200073#32 = .error (.unknownSystemWord 0x30200073#32) ∧
    decode 0x001000F3#32 = .error (.unknownSystemWord 0x001000F3#32) ∧ decode 0x30514173#32 = .error (.unknownFunct3 0x73#7 4#3) ∧
    decode 0x00016283#32 = .error (.unknownFunct3 0x03#7 6#3) ∧ decode 0x00313023#32 = .error (.unknownFunct3 0x23#7 3#3) ∧
    decode 0x00002063#32 = .error (.unknownFunct3 0x63#7 2#3) ∧ decode 0x000010E7#32 = .error (.unknownFunct3 0x67#7 1#3) ∧
    decode 0x40209093#32 = .error (.unknownFunct7 0x13#7 1#3 0x20#7) ∧
    decode 0x6020D093#32 = .error (.unknownFunct7 0x13#7 5#3 0x30#7) ∧
    decode 0x4020C1B3#32 = .error (.unknownFunct7 0x33#7 4#3 0x20#7) := by decide

/-- Bytes: little-endian, four of them, the rest handed back; fewer than four are refused. -/
theorem test_decode_bytes :
    decodeBytes [0x93, 0x00, 0xF1, 0xFF, 0x13] = .ok (.addi 1 2 0xFFF#12, [0x13]) ∧
    decodeBytes [0x93, 0x00, 0xF1] = .error .truncated ∧
    decodeTableWord 32 0xFFF10093 = some (.addi 1 2 0xFFF#12) ∧ decodeTableWord 32 0xFFFFFFFF = none := by decide

/-! ### One step of every instruction (sections 2.2 to 2.12): the state before, the word, the fields that tell -/

/-- Memory capacity 0x1000, the pc at 0x100 and the registers given, as the vectors of the spec start. -/
def start (regs : List (Reg × Word)) : State :=
  regs.foldl (fun s p => s.writeReg p.1 p.2) (State.launch ⟨0x1000, 0x100#32, [], false⟩)

/-- A start with one CSR set. -/
def startCsr (a : CsrAddr) (v : Word) (regs : List (Reg × Word)) : State := (start regs).writeCsr a v

/-- A start with bytes in memory. -/
def startMem (a : Nat) (bytes : List Byte) (regs : List (Reg × Word)) : State := (start regs).writeBytes a bytes

/-- The state a step leaves; the state before where it leaves none. -/
def after (s : State) : State :=
  match step s with
  | .next t => t
  | _ => s

/-- The state after the step that runs `word`. -/
def runs (word : Nat) (s : State) : State := after (s.withFetchWord 32 word)

/-- The step of `word` completes: x[r] reads `v` and the pc is `pc`. -/
def gives (word : Nat) (s : State) (r : Reg) (v pc : Word) : Bool :=
  (runs word s).readReg r == v && (runs word s).pc == pc && (runs word s).run == .running

/-- The step of `word` halts with `r`, with the pc where it was. -/
def stops (word : Nat) (s : State) (r : HaltReason) : Bool :=
  (runs word s).run == .halted r && (runs word s).pc == s.pc

theorem test_step_ecall : stops 0x00000073 (start []) .environmentCall := by decide

theorem test_step_ebreak : stops 0x00100073 (start []) .breakpoint := by decide

theorem test_step_csrrw :
    gives 0x305090F3 (startCsr 0x305 0x77 [(1, 0x55)]) 1 0x77 0x104 ∧
    (runs 0x305090F3 (startCsr 0x305 0x77 [(1, 0x55)])).readCsr 0x305 = 0x55#32 := by decide

theorem test_step_csrrs :
    gives 0x305120F3 (startCsr 0x305 0x0F [(2, 0xF0)]) 1 0x0F 0x104 ∧
    (runs 0x305120F3 (startCsr 0x305 0x0F [(2, 0xF0)])).readCsr 0x305 = 0xFF#32 := by decide

theorem test_step_csrrc :
    gives 0x3000B0F3 (startCsr 0x300 0xFF [(1, 0x0F)]) 1 0xFF 0x104 ∧
    (runs 0x3000B0F3 (startCsr 0x300 0xFF [(1, 0x0F)])).readCsr 0x300 = 0xF0#32 := by decide

theorem test_step_csrrwi :
    gives 0x340FD2F3 (startCsr 0x340 0xFFFFFFFF []) 5 0xFFFFFFFF 0x104 ∧
    (runs 0x340FD2F3 (startCsr 0x340 0xFFFFFFFF [])).readCsr 0x340 = 0x1F#32 := by decide

theorem test_step_csrrsi :
    gives 0x340AE2F3 (startCsr 0x340 0x100 []) 5 0x100 0x104 ∧
    (runs 0x340AE2F3 (startCsr 0x340 0x100 [])).readCsr 0x340 = 0x115#32 := by decide

theorem test_step_csrrci :
    gives 0x340FF2F3 (startCsr 0x340 0xFFFFFFFF []) 5 0xFFFFFFFF 0x104 ∧
    (runs 0x340FF2F3 (startCsr 0x340 0xFFFFFFFF [])).readCsr 0x340 = 0xFFFFFFE0#32 := by decide

theorem test_step_fence : gives 0xFFFFFF8F (start []) 31 0 0x104 := by decide

theorem test_step_fenceI : gives 0x0000100F (start []) 0 0 0x104 := by decide

theorem test_step_addi :
    gives 0x00110093 (start [(2, 0xFFFFFFFF)]) 1 0 0x104 ∧
    gives 0x80010093 (start []) 1 0xFFFFF800 0x104 := by decide

theorem test_step_slti :
    gives 0x80012093 (start [(2, 0x80000000)]) 1 1 0x104 ∧
    gives 0xFFF12093 (start []) 1 0 0x104 := by decide

theorem test_step_sltiu :
    gives 0xFFF13093 (start [(2, 5)]) 1 1 0x104 ∧
    gives 0x00113093 (start [(2, 1)]) 1 0 0x104 := by decide

theorem test_step_xori : gives 0xFFF14093 (start [(2, 0x12345678)]) 1 0xEDCBA987 0x104 := by decide

theorem test_step_ori : gives 0x80016093 (start [(2, 1)]) 1 0xFFFFF801 0x104 := by decide

theorem test_step_andi : gives 0xFF017093 (start [(2, 0x12345678)]) 1 0x12345670 0x104 := by decide

theorem test_step_slli : gives 0x01F11093 (start [(2, 3)]) 1 0x80000000 0x104 := by decide

theorem test_step_srli : gives 0x00415093 (start [(2, 0x80000000)]) 1 0x08000000 0x104 := by decide

theorem test_step_srai : gives 0x40415093 (start [(2, 0x80000000)]) 1 0xF8000000 0x104 := by decide

theorem test_step_lb : gives 0x00310283 (startMem 0x203 [0x81] [(2, 0x200)]) 5 0xFFFFFF81 0x104 := by decide

theorem test_step_lh : gives 0x00251283 (startMem 0x202 [0x34, 0x92] [(10, 0x200)]) 5 0xFFFF9234 0x104 := by decide

theorem test_step_lw :
    gives 0x00412283 (startMem 0x204 [0xFF, 0xFF, 0x00, 0x80] [(2, 0x200)]) 5 0x8000FFFF 0x104 := by decide

theorem test_step_lbu : gives 0x00014283 (startMem 0xFFF [0xA5] [(2, 0xFFF)]) 5 0xA5 0x104 := by decide

theorem test_step_lhu : gives 0x00615283 (startMem 0x206 [0x00, 0x80] [(2, 0x200)]) 5 0x8000 0x104 := by decide

theorem test_step_load_halts :
    stops 0x00111283 (start [(2, 0x200)]) (.misaligned 0x201 2) ∧
    stops 0x00012283 (start [(2, 0xFFFFFFFC)]) (.outOfRange 0xFFFFFFFC 4 0x1000) ∧
    stops 0x00012283 (start [(2, 0xFFE)]) (.misaligned 0xFFE 4) := by decide

theorem test_step_sb : (runs 0x003101A3 (start [(2, 0x200), (3, 0xFFFFFF9A)])).readByte 0x203 = 0x9A#8 := by decide

theorem test_step_sh :
    (runs 0x00311123 (start [(2, 0x200), (3, 0xAABBCCDD)])).readByte 0x202 = 0xDD#8 ∧
    (runs 0x00311123 (start [(2, 0x200), (3, 0xAABBCCDD)])).readByte 0x203 = 0xCC#8 := by decide

theorem test_step_sw :
    (runs 0xFE312E23 (start [(2, 0x208), (3, 0xDEADBEEF)])).readByte 0x204 = 0xEF#8 ∧
    (runs 0xFE312E23 (start [(2, 0x208), (3, 0xDEADBEEF)])).readByte 0x207 = 0xDE#8 := by decide

theorem test_step_sw_zeros_unlist :
    (runs 0x00012023 (startMem 0x200 [0xFF, 0xFF, 0xFF, 0xFF] [(2, 0x200)])).mem =
    ((start []).withFetchWord 32 0x00012023).mem := by decide

theorem test_step_store_halts :
    stops 0x00312023 (start [(2, 0xFFE), (3, 1)]) (.misaligned 0xFFE 4) ∧
    stops 0x00310023 (start [(2, 0x1000), (3, 1)]) (.outOfRange 0x1000 1 0x1000) := by decide

theorem test_step_jal : gives 0x001000EF (start []) 1 0x104 0x900 ∧ gives 0xF01FF06F (start []) 0 0 0 := by decide

theorem test_step_jalr :
    gives 0x000080E7 (start [(1, 0x300)]) 1 0x104 0x300 ∧
    gives 0xFFF280E7 (start [(5, 0x200)]) 1 0x104 0x1FE := by decide

theorem test_step_lui :
    gives 0xFFFFF2B7 (start []) 5 0xFFFFF000 0x104 ∧
    gives 0x12345037 (start []) 0 0 0x104 := by decide

theorem test_step_auipc : gives 0x80000297 (start []) 5 0x80000100 0x104 := by decide

theorem test_step_beq :
    gives 0x00208863 (start [(1, 7), (2, 7)]) 0 0 0x110 ∧
    gives 0x00208863 (start [(1, 7), (2, 8)]) 0 0 0x104 := by decide

theorem test_step_bne :
    gives 0xFE2098E3 (start [(1, 7), (2, 8)]) 0 0 0xF0 ∧
    gives 0xFE1098E3 (start [(1, 7)]) 0 0 0x104 := by decide

theorem test_step_blt :
    gives 0x0020C463 (start [(1, 0xFFFFFFFF), (2, 1)]) 0 0 0x108 ∧
    gives 0x0020C463 (start [(1, 5), (2, 5)]) 0 0 0x104 := by decide

theorem test_step_bge :
    gives 0x0020D463 (start [(1, 0xFFFFFFFF), (2, 1)]) 0 0 0x104 ∧
    gives 0x0020D463 (start [(1, 5), (2, 5)]) 0 0 0x108 := by decide

theorem test_step_bltu :
    gives 0x0020E463 (start [(1, 0xFFFFFFFF), (2, 1)]) 0 0 0x104 ∧
    gives 0x00206463 (start [(2, 3)]) 0 0 0x108 := by decide

theorem test_step_bgeu :
    gives 0x0020F463 (start [(1, 0xFFFFFFFF), (2, 1)]) 0 0 0x108 ∧
    gives 0x0000F463 (start []) 0 0 0x108 := by decide

theorem test_step_add :
    gives 0x002081B3 (start [(1, 0xFFFFFFFF), (2, 1)]) 3 0 0x104 ∧
    gives 0x00208033 (start [(1, 1), (2, 2)]) 0 0 0x104 := by decide

theorem test_step_sub : gives 0x402081B3 (start [(1, 0), (2, 1)]) 3 0xFFFFFFFF 0x104 := by decide

theorem test_step_sll : gives 0x002091B3 (start [(1, 1), (2, 0x21)]) 3 2 0x104 := by decide

theorem test_step_slt : gives 0x0020A1B3 (start [(1, 0xFFFFFFFF), (2, 1)]) 3 1 0x104 := by decide

theorem test_step_sltu : gives 0x0020B1B3 (start [(1, 0xFFFFFFFF), (2, 1)]) 3 0 0x104 := by decide

theorem test_step_xor : gives 0x0020C1B3 (start [(1, 0xFF00FF00), (2, 0x0FF00FF0)]) 3 0xF0F0F0F0 0x104 := by decide

theorem test_step_srl : gives 0x0020D1B3 (start [(1, 0xF0000000), (2, 0xFFFFFFE4)]) 3 0x0F000000 0x104 := by decide

theorem test_step_sra : gives 0x4020D1B3 (start [(1, 0x80000000), (2, 0x24)]) 3 0xF8000000 0x104 := by decide

theorem test_step_or : gives 0x0020E1B3 (start [(1, 0xF0), (2, 0x0F)]) 3 0xFF 0x104 := by decide

theorem test_step_and : gives 0x0020F1B3 (start [(1, 0xF0F0), (2, 0xFF00)]) 3 0xF000 0x104 := by decide

theorem test_step_illegal : stops 0x0000707F (start []) (.illegalInstruction 0x100 0x0000707F) := by decide

/-- A fetch at a misaligned pc halts (section 2.12); nothing is placed there. -/
theorem test_step_misaligned_pc : (after ((start []).hostReset 0x102)).run = .halted (.misaligned 0x102 4) := by decide

/-- A fetch past the capacity halts (section 2.15). -/
theorem test_step_pc_out_of_range :
    (after ((start []).hostReset 0x1000)).run = .halted (.outOfRange 0x1000 4 0x1000) := by decide

/-- Step on a halted and on an unstarted core. -/
theorem test_step_not_running :
    (match step ((start []).halt .breakpoint) with | .refused r => r == .stepWhileHalted .breakpoint | _ => false) = true ∧
    (match step { start [] with run := .unstarted } with | .fault f => f == .stuckUnstarted | _ => false) = true := by decide

/-- The top of the address space (section 2.13): the bounds are compared as integers. -/
theorem test_bounds_top :
    checkAccess (2 ^ 32) 0xFFFFFFFC#32 4 = .ok () ∧
    checkAccess (2 ^ 32 - 1) 0xFFFFFFFC#32 4 = .error (.outOfRange 0xFFFFFFFC#32 4 0xFFFFFFFF) ∧
    checkAccess (2 ^ 32) 0xFFFFFFFE#32 4 = .error (.misaligned 0xFFFFFFFE#32 4) ∧
    checkAccess 0 0#32 1 = .error (.outOfRange 0#32 1 0) := by decide

/-! ### Host operations (sections 2.14 and 2.15) -/

/-- What a call of loadBytes answers at one byte. -/
def loaded (bytes : List Byte) (base : Word) (a : Nat) : Except HaltReason Byte :=
  ((start []).loadBytes bytes base).map fun t => t.readByte a

theorem test_loadBytes :
    loaded [0x13, 0, 0, 0] 0xFFC 0xFFC = .ok 0x13 ∧ loaded [1, 2, 3, 4] 0xFFE 0xFFE = .error (.outOfRange 0xFFE 4 0x1000) ∧
    loaded [0xAA] 0x001 0x001 = .ok 0xAA ∧ loaded [] 0x1000 0 = .ok 0 ∧
    loaded [] 0x1001 0 = .error (.outOfRange 0x1001 0 0x1000) := by decide

theorem test_hostReset :
    let s := ((startCsr 0x305 0x55 [(1, 5), (31, 0xFFFFFFFF)]).writeByte 0x100 0x22).halt .breakpoint
    (s.hostReset 0x200).readReg 31 = 0 ∧ (s.hostReset 0x200).readCsr 0x305 = 0 ∧ (s.hostReset 0x200).pc = 0x200 ∧
    (s.hostReset 0x200).run = .running ∧ (s.hostReset 0x200).readByte 0x100 = 0x22 := by decide

/-! ### Trace lines (sections 1.1 to 1.5) -/

/-- The lines of the step that runs `word` at `pc` with the trace flag on. -/
def traced (word : Nat) (pc : Word) (regs : List (Reg × Word)) : List String :=
  (runs word { (start regs).setTrace true with pc := pc }).traceOut.map TraceRecord.text

theorem test_trace_addi : traced 0x00A00093 0 [] = ["PC=0x00000000 INST=0x00a00093 addi x1,x0,10 WB: x1=0x0000000a"] := by
  decide

theorem test_trace_auipc : traced 0x00001117 4 [] = ["PC=0x00000004 INST=0x00001117 auipc x2,0x1 WB: x2=0x00001004"] := by
  decide

theorem test_trace_bne : traced 0xFE209EE3 12 [(1, 1)] = ["PC=0x0000000c INST=0xfe209ee3 bne x1,x2,-4"] := by decide

theorem test_trace_csrrw :
    traced 0x30509173 4 [(1, 0x55)] = ["PC=0x00000004 INST=0x30509173 csrrw x2,0x305,x1 WB: x2=0x00000000"] := by decide

theorem test_trace_ebreak : traced 0x00100073 12 [] = ["PC=0x0000000c INST=0x00100073 ebreak"] := by decide

theorem test_trace_illegal : traced 0x0000707F 8 [] = ["PC=0x00000008 INST=0x0000707f illegal"] := by decide

/-! ### The reset state -/

theorem reset_inv : State.reset.Inv := ⟨by decide, by decide, by decide, by decide⟩

/-- From bare reset the first step fetches the word 0, which is no instruction. -/
theorem test_reset_step : (after State.reset).run = .halted (.illegalInstruction 0#32 0#32) := by decide

/-! ### Witnesses: for every statement with hypotheses, a state and operands that meet them all, each clause at a boundary -/

/-- A Running state with the invariant, registers, a CSR and bytes of memory set, traced: the premises' common witness. -/
def sample : State :=
  ((startMem 0xFFC [0x78, 0x56, 0x34, 0x12] [(2, 0xFFC), (5, 0xFFF), (6, 0xFFFFFFFF)]).writeCsr 0x340 0x99).setTrace true

/-- `sample` with a word where the next step fetches. -/
def sampleWith (word : Nat) : State := sample.withFetchWord 32 word

theorem sample_inv : sample.Inv := ⟨by decide, by decide, by decide, by decide⟩

theorem sampleWith_addi_inv : (sampleWith 0x00110093).Inv := ⟨by decide, by decide, by decide, by decide⟩

theorem sample_memory_wf : Memory.wf sample.capacity sample.mem = true := by decide

theorem sample_csr_wf : CsrFile.wf sample.csr = true ∧ sample.readCsr 0x340 = 0x99#32 := by decide

theorem witness_DecodeOfEncode :
    (Instr.bgeu 31 31 0x1000#13).wf = true ∧ (Instr.jal 31 0x100000#21).wf = true ∧ (Instr.fence 0xFFF 31 7#3 31).wf = true ∧
    (Instr.srai 31 31 31#5).wf = true := by decide

theorem witness_EncodeOfDecode : decode 0xFFFFFF8F#32 = .ok (.fence 0xFFF#12 31 7#3 31) := by decide

theorem witness_CsrWriteInstructions :
    0x340312F3#32 &&& 0x0000707F#32 = 0x00001073#32 ∧ 0xFFFFD073#32 &&& 0x0000707F#32 = 0x00005073#32 ∧
    CsrFile.wf sample.csr = true := by decide

theorem witness_CsrSetInstructions :
    0x305021F3#32 &&& 0x0000707F#32 = 0x00002073#32 ∧ 0x340AE2F3#32 &&& 0x0000707F#32 = 0x00006073#32 ∧
    CsrFile.wf sample.csr = true := by decide

theorem witness_CsrClearInstructions :
    0x3000B0F3#32 &&& 0x0000707F#32 = 0x00003073#32 ∧ 0x340FF2F3#32 &&& 0x0000707F#32 = 0x00007073#32 ∧
    CsrFile.wf sample.csr = true := by decide

theorem witness_FencesOnlyAdvance :
    0x0000100F#32 &&& 0x0000707F#32 = 0x0000100F#32 ∧
    0xFFFFFF8F#32 &&& 0x0000007F#32 = 0x0000000F#32 ∧ bits 0xFFFFFF8F#32 14 12 ≠ 1 ∧
    0x0FF0000F#32 &&& 0x0000007F#32 = 0x0000000F#32 ∧ bits 0x0FF0000F#32 14 12 ≠ 1 := by decide

theorem witness_AddAndSubtract :
    0x80010093#32 &&& 0x0000707F#32 = 0x00000013#32 ∧ 0x002081B3#32 &&& 0xFE00707F#32 = 0x00000033#32 ∧
    0x402081B3#32 &&& 0xFE00707F#32 = 0x40000033#32 := by decide

theorem witness_BitwiseLogic :
    0xFFF14093#32 &&& 0x0000707F#32 = 0x00004013#32 ∧ 0x80016093#32 &&& 0x0000707F#32 = 0x00006013#32 ∧
    0xFF017093#32 &&& 0x0000707F#32 = 0x00007013#32 ∧ 0x0020C1B3#32 &&& 0xFE00707F#32 = 0x00004033#32 ∧
    0x0020E1B3#32 &&& 0xFE00707F#32 = 0x00006033#32 ∧ 0x0020F1B3#32 &&& 0xFE00707F#32 = 0x00007033#32 := by decide

theorem witness_ShiftsByAConstant :
    0x01F11093#32 &&& 0xFE00707F#32 = 0x00001013#32 ∧ 0x00415093#32 &&& 0xFE00707F#32 = 0x00005013#32 ∧
    0x41F15093#32 &&& 0xFE00707F#32 = 0x40005013#32 := by decide

theorem witness_ShiftsByARegister :
    0x002091B3#32 &&& 0xFE00707F#32 = 0x00001033#32 ∧ 0x0020D1B3#32 &&& 0xFE00707F#32 = 0x00005033#32 ∧
    0x4020D1B3#32 &&& 0xFE00707F#32 = 0x40005033#32 := by decide

theorem witness_SetIfLessThan :
    0x80012093#32 &&& 0x0000707F#32 = 0x00002013#32 ∧ 0xFFF13093#32 &&& 0x0000707F#32 = 0x00003013#32 ∧
    0x0020A1B3#32 &&& 0xFE00707F#32 = 0x00002033#32 ∧ 0x0020B1B3#32 &&& 0xFE00707F#32 = 0x00003033#32 := by decide

/-- The last byte, and the first address past it. -/
theorem witness_ByteLoads :
    0xFFF10283#32 &&& 0x0000707F#32 = 0x00000003#32 ∧ 0x00014283#32 &&& 0x0000707F#32 = 0x00004003#32 ∧
    (sample.effectiveAddress 5 (immI 0#12)).toNat + 1 ≤ sample.capacity ∧
    sample.capacity < (sample.effectiveAddress 5 (immI 1#12)).toNat + 1 := by decide

/-- The last halfword, an odd address past the capacity, and the first even one. -/
theorem witness_HalfwordLoads :
    0x00611283#32 &&& 0x0000707F#32 = 0x00001003#32 ∧ 0x00615283#32 &&& 0x0000707F#32 = 0x00005003#32 ∧
    ((sample.effectiveAddress 2 (immI 2#12)).toNat % 2 = 0 ∧
      (sample.effectiveAddress 2 (immI 2#12)).toNat + 2 ≤ sample.capacity) ∧
    (sample.effectiveAddress 5 (immI 0#12)).toNat % 2 ≠ 0 ∧
    ((sample.effectiveAddress 2 (immI 4#12)).toNat % 2 = 0 ∧
      sample.capacity < (sample.effectiveAddress 2 (immI 4#12)).toNat + 2) := by decide

/-- The last word, a misaligned address, and the first word past the capacity. -/
theorem witness_WordLoad :
    0xFFC12283#32 &&& 0x0000707F#32 = 0x00002003#32 ∧
    ((sample.effectiveAddress 2 (immI 0#12)).toNat % 4 = 0 ∧
      (sample.effectiveAddress 2 (immI 0#12)).toNat + 4 ≤ sample.capacity) ∧
    (sample.effectiveAddress 2 (immI 2#12)).toNat % 4 ≠ 0 ∧
    ((sample.effectiveAddress 2 (immI 4#12)).toNat % 4 = 0 ∧
      sample.capacity < (sample.effectiveAddress 2 (immI 4#12)).toNat + 4) := by decide

theorem witness_ByteStore :
    0x003101A3#32 &&& 0x0000707F#32 = 0x00000023#32 ∧ Memory.wf sample.capacity sample.mem = true ∧
    (sample.effectiveAddress 5 (immS 0#12)).toNat + 1 ≤ sample.capacity ∧
    sample.capacity < (sample.effectiveAddress 5 (immS 1#12)).toNat + 1 := by decide

theorem witness_HalfwordStore :
    0x00311123#32 &&& 0x0000707F#32 = 0x00001023#32 ∧ Memory.wf sample.capacity sample.mem = true ∧
    ((sample.effectiveAddress 2 (immS 2#12)).toNat % 2 = 0 ∧
      (sample.effectiveAddress 2 (immS 2#12)).toNat + 2 ≤ sample.capacity) ∧
    (sample.effectiveAddress 5 (immS 0#12)).toNat % 2 ≠ 0 ∧
    ((sample.effectiveAddress 2 (immS 4#12)).toNat % 2 = 0 ∧
      sample.capacity < (sample.effectiveAddress 2 (immS 4#12)).toNat + 2) := by decide

theorem witness_WordStore :
    0xFE312E23#32 &&& 0x0000707F#32 = 0x00002023#32 ∧ Memory.wf sample.capacity sample.mem = true ∧
    ((sample.effectiveAddress 2 (immS 0#12)).toNat % 4 = 0 ∧
      (sample.effectiveAddress 2 (immS 0#12)).toNat + 4 ≤ sample.capacity) ∧
    (sample.effectiveAddress 2 (immS 2#12)).toNat % 4 ≠ 0 ∧
    ((sample.effectiveAddress 2 (immS 4#12)).toNat % 4 = 0 ∧
      sample.capacity < (sample.effectiveAddress 2 (immS 4#12)).toNat + 4) := by decide

/-- The two addresses are equal through two base registers. -/
theorem witness_StoredWordLoadsBack :
    Memory.wf sample.capacity sample.mem = true ∧
    ((sample.effectiveAddress 2 (immS 0#12)).toNat % 4 = 0 ∧
      (sample.effectiveAddress 2 (immS 0#12)).toNat + 4 ≤ sample.capacity) ∧
    sample.effectiveAddress 5 (immI 0xFFD#12) = sample.effectiveAddress 2 (immS 0#12) ∧ (7 : Reg) ≠ 0 := by decide

theorem witness_StoredInstructionIsFetched :
    let s := { sample with pc := 0xFF8#32 }
    Memory.wf s.capacity s.mem = true ∧
    ((s.effectiveAddress 2 (immS 0#12)).toNat % 4 = 0 ∧ (s.effectiveAddress 2 (immS 0#12)).toNat + 4 ≤ s.capacity) ∧
    s.effectiveAddress 2 (immS 0#12) = s.pc + 4 := by decide

theorem witness_JumpAndLink : 0xFFFFF06F#32 &&& 0x0000007F#32 = 0x0000006F#32 := by decide

theorem witness_JumpAndLinkRegister : 0x800280E7#32 &&& 0x0000707F#32 = 0x00000067#32 := by decide

theorem witness_UpperImmediates :
    0xFFFFF2B7#32 &&& 0x0000007F#32 = 0x00000037#32 ∧ 0xFFFFF297#32 &&& 0x0000007F#32 = 0x00000017#32 := by decide

theorem witness_BranchesOnEquality :
    0xFE000FE3#32 &&& 0x0000707F#32 = 0x00000063#32 ∧ 0xFE2098E3#32 &&& 0x0000707F#32 = 0x00001063#32 := by decide

theorem witness_BranchesOnSignedOrder :
    0x0020C463#32 &&& 0x0000707F#32 = 0x00004063#32 ∧ 0x0020D463#32 &&& 0x0000707F#32 = 0x00005063#32 := by decide

theorem witness_BranchesOnUnsignedOrder :
    0x0020E463#32 &&& 0x0000707F#32 = 0x00006063#32 ∧ 0x0020F463#32 &&& 0x0000707F#32 = 0x00007063#32 := by decide

/-- A Running state whose pc is the last word of memory, with the word given there. -/
def lastWordWith (word : Nat) : State := { sample with pc := 0xFFC#32 }.withFetchWord 32 word

theorem witness_StepRunsTheDecodedInstruction :
    (lastWordWith 0x00110093).run = .running ∧
    ((lastWordWith 0x00110093).pc.toNat % 4 = 0 ∧ (lastWordWith 0x00110093).pc.toNat + 4 ≤ (lastWordWith 0x00110093).capacity) ∧
    decode (wordAtPc (lastWordWith 0x00110093)) = .ok (.addi 1 2 1#12) := by decide

theorem witness_FetchErrorsHalt :
    sample.run = .running ∧ (sample.hostReset 0x1002).run = .running ∧ (sample.hostReset 0x1002).pc.toNat % 4 ≠ 0 ∧
    (sample.hostReset 0x1000).run = .running ∧ (sample.hostReset 0x1000).pc.toNat % 4 = 0 ∧
    (sample.hostReset 0x1000).capacity < (sample.hostReset 0x1000).pc.toNat + 4 := by decide

theorem witness_IllegalWordHaltsTheStep :
    (lastWordWith 0x0000707F).run = .running ∧
    ((lastWordWith 0x0000707F).pc.toNat % 4 = 0 ∧ (lastWordWith 0x0000707F).pc.toNat + 4 ≤ (lastWordWith 0x0000707F).capacity) ∧
    decode (wordAtPc (lastWordWith 0x0000707F)) = .error (.unknownOpcode 0x7F#7) := by decide

/-- No halt, and every check that can fail, each before the ones it outranks: a pc both misaligned and out of range, a pc out
of range, a word of no instruction, ECALL, EBREAK, and a load and a store both misaligned and out of range, then out of range. -/
theorem witness_StepOutcomeFollowsThePriority :
    (sampleWith 0x00110093).run = .running ∧ expectedHalt (sampleWith 0x00110093) = none ∧
    (sample.hostReset 0x1002).run = .running ∧ expectedHalt (sample.hostReset 0x1002) = some (.misaligned 0x1002 4) ∧
    (sample.hostReset 0x1000).run = .running ∧ expectedHalt (sample.hostReset 0x1000) = some (.outOfRange 0x1000 4 0x1000) ∧
    expectedHalt (sampleWith 0x0000707F) = some (.illegalInstruction 0x100 0x0000707F) ∧
    expectedHalt (sampleWith 0x00000073) = some .environmentCall ∧ expectedHalt (sampleWith 0x00100073) = some .breakpoint ∧
    expectedHalt (sampleWith 0x00512283) = some (.misaligned 0x1001 4) ∧
    expectedHalt (sampleWith 0x00412283) = some (.outOfRange 0x1000 4 0x1000) ∧
    expectedHalt (sampleWith 0x003122A3) = some (.misaligned 0x1001 4) ∧
    expectedHalt (sampleWith 0x00312223) = some (.outOfRange 0x1000 4 0x1000) := by decide

theorem witness_RunStateTransitions :
    step (sampleWith 0x00110093) = .next (after (sampleWith 0x00110093)) ∧
    (sample.halt .environmentCall).run = .halted .environmentCall ∧
    sample.loadBytes [0x13] 0xFFF = .ok (sample.writeBytes 0xFFF [0x13]) := ⟨rfl, rfl, by decide⟩

theorem witness_UnstartedCoreIsStuck : { sample with run := .unstarted }.run = .unstarted := rfl

theorem witness_HaltCommitsNothing :
    step (sampleWith 0x00412283) = .next (after (sampleWith 0x00412283)) ∧ (after (sampleWith 0x00412283)).run ≠ .running :=
  ⟨rfl, by decide⟩

theorem witness_StepKeepsInv :
    (sampleWith 0x00110093).Inv ∧ step (sampleWith 0x00110093) = .next (after (sampleWith 0x00110093)) :=
  ⟨sampleWith_addi_inv, rfl⟩

/-- The largest capacity, and the smallest. -/
theorem witness_LaunchMeetsInv :
    (2 ^ 32 ≤ maxCapacity ∧ Memory.wf (2 ^ 32) [(0, 1), (0xFFFFFFFF, 0xFF)] = true) ∧
    (0 ≤ maxCapacity ∧ Memory.wf 0 [] = true) := by decide

theorem witness_HostOperationsKeepInv :
    sample.Inv ∧ sample.loadBytes [0x13] 0xFFF = .ok (sample.writeBytes 0xFFF [0x13]) := ⟨sample_inv, by decide⟩

/-- An ADDI to x0, from a state whose x0 cell is not 0. -/
theorem witness_RegisterZeroAfterEveryStep :
    let s := { sampleWith 0x00500013 with x := Vector.replicate 32 7 }
    step s = .next (after s) ∧ (after s).run = .running := ⟨rfl, by decide⟩

theorem witness_EvenPcStaysEven :
    (sampleWith 0x00000163).pc.toNat % 2 = 0 ∧ step (sampleWith 0x00000163) = .next (after (sampleWith 0x00000163)) :=
  ⟨by decide, rfl⟩

theorem witness_CapacityAndTraceFlagAreFixed :
    step (sampleWith 0x00110093) = .next (after (sampleWith 0x00110093)) := rfl

/-- An ADDI, and a CSR instruction. -/
theorem witness_OnlyTheNamedRegisterChanges :
    (step (sampleWith 0x00110093) = .next (after (sampleWith 0x00110093)) ∧
      (after (sampleWith 0x00110093)).readReg 1 ≠ (sampleWith 0x00110093).readReg 1) ∧
    (step (sampleWith 0x34029373) = .next (after (sampleWith 0x34029373)) ∧
      (after (sampleWith 0x34029373)).readReg 6 ≠ (sampleWith 0x34029373).readReg 6) := ⟨⟨rfl, by decide⟩, rfl, by decide⟩

theorem witness_OnlyCsrInstructionsChangeCsrs :
    step (sampleWith 0x340312F3) = .next (after (sampleWith 0x340312F3)) ∧
    (after (sampleWith 0x340312F3)).readCsr 0x340 ≠ (sampleWith 0x340312F3).readCsr 0x340 := ⟨rfl, by decide⟩

/-- SW of 0 to the last word of memory. -/
theorem witness_OnlyStoresChangeMemory :
    step (sampleWith 0x00012023) = .next (after (sampleWith 0x00012023)) ∧
    (after (sampleWith 0x00012023)).readByte 0xFFF ≠ (sampleWith 0x00012023).readByte 0xFFF := ⟨rfl, by decide⟩

theorem witness_PcAdvancesByFourExceptAtJumps :
    step (sampleWith 0x0080006F) = .next (after (sampleWith 0x0080006F)) ∧
    (after (sampleWith 0x0080006F)).run = .running ∧
    (after (sampleWith 0x0080006F)).pc ≠ (sampleWith 0x0080006F).pc + 4 := ⟨rfl, by decide, by decide⟩

theorem witness_CanonicalStatesWithEqualContentsAreEqual :
    sample.Inv ∧ (sample.hostReset 0).Inv ∧ sample.capacity = (sample.hostReset 0).capacity ∧
    SameMem sample (sample.hostReset 0) ∧ SameCsrs sample sample :=
  ⟨sample_inv, ⟨by decide, by decide, by decide, by decide⟩, rfl, fun _ => rfl, fun _ => rfl⟩

theorem witness_ResetClearsRegistersAndCsrs :
    step (sampleWith 0x00110093) = .next (after (sampleWith 0x00110093)) ∧
    (after (sampleWith 0x00110093)).run = .running := ⟨rfl, by decide⟩

/-- A sequence that ends at the capacity, one that runs past it, and the bytes and addresses the clauses speak of. -/
theorem witness_LoadBytesContract :
    Memory.wf sample.capacity sample.mem = true ∧
    sample.capacity < (0xFFD#32).toNat + [1, 2, 3, 4].length ∧
    (0xFFD#32).toNat + ([1, 2, 3] : List Byte).length ≤ sample.capacity ∧ ([1, 2, 3] : List Byte)[2]? = some 3 ∧
    0xFFC < (0xFFD#32).toNat ∧ (0xFFD#32).toNat + ([1, 2, 3] : List Byte).length ≤ 0x1000 := by decide

theorem witness_PlacedWordIsFetched :
    Memory.wf sample.capacity sample.mem = true ∧
    ({ sample with pc := 0xFFC#32 }.pc.toNat % 4 = 0 ∧ { sample with pc := 0xFFC#32 }.pc.toNat + 4 ≤ sample.capacity) := by
  decide

theorem witness_NormalStepEmitsOneRecord :
    (step (sampleWith 0x00110093) = .next (after (sampleWith 0x00110093)) ∧ (sampleWith 0x00110093).trace = true ∧
      (after (sampleWith 0x00110093)).run = .running) ∧
    (step ((sampleWith 0x00110093).setTrace false) = .next (after ((sampleWith 0x00110093).setTrace false)) ∧
      ((sampleWith 0x00110093).setTrace false).trace = false) := ⟨⟨rfl, by decide, by decide⟩, rfl, rfl⟩

theorem witness_EcallAndEbreakRecords :
    (sampleWith 0x00000073).run = .running ∧ (sampleWith 0x00000073).trace = true ∧
    (sampleWith 0x00000073).fetch = .ok 0x00000073#32 ∧
    (sampleWith 0x00100073).run = .running ∧ (sampleWith 0x00100073).trace = true ∧
    (sampleWith 0x00100073).fetch = .ok 0x00100073#32 := by decide

theorem witness_MemoryErrorsEmitNoRecord :
    (step (sampleWith 0x00212283) = .next (after (sampleWith 0x00212283)) ∧
      (after (sampleWith 0x00212283)).run = .halted (.misaligned 0xFFE 4)) ∧
    (step (sampleWith 0x00412283) = .next (after (sampleWith 0x00412283)) ∧
      (after (sampleWith 0x00412283)).run = .halted (.outOfRange 0x1000 4 0x1000)) :=
  ⟨⟨rfl, by decide⟩, rfl, by decide⟩

/-- A step with a writeback field, and one without. -/
theorem witness_RecordReportsTheWriteback :
    (step (sampleWith 0x00110093) = .next (after (sampleWith 0x00110093)) ∧ (sampleWith 0x00110093).trace = true ∧
      (after (sampleWith 0x00110093)).run = .running ∧
      (after (sampleWith 0x00110093)).traceOut.map (·.wb) = [some (1, 0xFFD#32)]) ∧
    (step (sampleWith 0x00012023) = .next (after (sampleWith 0x00012023)) ∧ (sampleWith 0x00012023).trace = true ∧
      (after (sampleWith 0x00012023)).run = .running ∧ (after (sampleWith 0x00012023)).traceOut.map (·.wb) = [none]) :=
  ⟨⟨rfl, by decide, by decide, by decide⟩, rfl, by decide, by decide, by decide⟩

theorem witness_TracingChangesNothingElse :
    untraced sample = untraced (sample.setTrace false) ∧ sample.trace ≠ (sample.setTrace false).trace := ⟨rfl, by decide⟩

end Sys2Proof.Tests
end

section
/-! Proofs about the state family (spec/10_state.md): what a completed step is, and that it leaves x0's cell 0. -/

-- one theorem at a time: the checker's memory limit does not hold a stack for each of many theorems at once
set_option Elab.async false

namespace Sys2Proof.Machine

/-! ### The trace hook -/

@[simp] theorem traceInstr_x (s : State) (word : Word) (i : Instr) (t : State) : (traceInstr s word i t).x = t.x := by
  unfold traceInstr; split <;> simp

@[simp] theorem traceInstr_run (s : State) (word : Word) (i : Instr) (t : State) :
    (traceInstr s word i t).run = t.run := by
  unfold traceInstr; split <;> simp

/-! ### What a completed step is -/

/-- Only a Running core has a step (R132, R134). -/
theorem running_of_step_next {s t : State} (h : step s = .next t) : s.run = .running := by
  cases hrun : s.run with
  | running => rfl
  | unstarted => simp [step, hrun] at h
  | halted r => simp [step, hrun] at h

/-- A step that leaves the core Running applied the effect of the instruction it fetched: every other step halts. -/
theorem step_completed {s t : State} (h : step s = .next t) (ht : t.run = .running) :
    ∃ word i, ∃ e : Effect s, s.fetch = .ok word ∧ decode word = .ok i ∧ exec i s = .next e.apply ∧
      t = traceInstr s word i e.apply := by
  obtain ⟨r, -, hstep⟩ | ⟨word, err, -, -, hstep⟩ | ⟨word, i, u, hfetch, hdec, hexec, hstep⟩ :=
    step_cases s (running_of_step_next h)
  all_goals obtain rfl := Host.Outcome.next.inj (h.symm.trans hstep)
  · simp at ht
  · simp at ht
  · obtain ⟨r, hhalt⟩ | ⟨e, heff⟩ := exec_cases i s
    · obtain rfl := Host.Outcome.next.inj (hexec.symm.trans hhalt)
      simp at ht
    · obtain rfl := Host.Outcome.next.inj (hexec.symm.trans heff)
      exact ⟨word, i, e, hfetch, hdec, heff, rfl⟩

/-! ### x0 -/

/-- Every effect ends in a commit, which clears x0's cell whatever was staged for it (R160, R162). -/
theorem Effect.apply_cell {s : State} (e : Effect s) : e.apply.x[0] = 0 := State.commit_cell _ _ _ _

@[simp] theorem State.writeReg_zero (s : State) (v : Word) : s.writeReg 0 v = s := rfl

/-- Settles O40: a completed step is a traced effect, which leaves x0's cell 0; reads of and writes to x0 never reach the
cell. -/
theorem registerZeroAfterEveryStep : Obligations.RegisterZeroAfterEveryStep := by
  refine ⟨fun s t h ht => ?_, fun _ t _ => t.readReg_zero, State.writeReg_zero⟩
  obtain ⟨word, i, e, -, -, -, rfl⟩ := step_completed h ht
  simpa using e.apply_cell

end Sys2Proof.Machine
end

section
/-! Proofs about the memory family (spec/20_memory.md): what a word access that passes its checks answers, and that a word
reads back as it was written. -/

-- one theorem at a time: the checker's memory limit does not hold a stack for each of many theorems at once
set_option Elab.async false

namespace Sys2Proof.Machine

/-! ### The memory port on words -/

/-- An aligned word access within the capacity reads its four bytes, lowest first (R210, R213). -/
theorem State.memRead32_ok {s : State} {addr : Word} (hal : addr.toNat % 4 = 0) (hin : addr.toNat + 4 ≤ s.capacity) :
    s.memRead32 addr = .ok (wordOfBytes (s.readByte addr.toNat) (s.readByte (addr.toNat + 1))
      (s.readByte (addr.toNat + 2)) (s.readByte (addr.toNat + 3))) := by
  rw [State.memRead32, checkAccess_ok hal hin]; rfl

/-- An aligned word access within the capacity writes the bytes of the word from its address on (R214). -/
theorem State.memWrite32_ok {s : State} {addr : Word} (v : Word) (hal : addr.toNat % 4 = 0)
    (hin : addr.toNat + 4 ≤ s.capacity) : s.memWrite32 addr v = .ok (s.writeBytes addr.toNat (bytesOfWord v)) := by
  rw [State.memWrite32, checkAccess_ok hal hin]; rfl

/-- The end of a step moves no byte and not the capacity, so the port answers as before. -/
@[simp] theorem State.memRead32_commit (s : State) (wb : Option (Reg × Word)) (csrw : Option (CsrAddr × Word))
    (n addr : Word) : (s.commit wb csrw n).memRead32 addr = s.memRead32 addr := by
  simp [State.memRead32]

/-- The bytes of a word, written at an aligned address within the capacity, read back as the word (R243): each byte reads
as it was written, and a word's bytes put together give the word. -/
theorem State.memRead32_writeBytes_bytesOfWord {s : State} {addr : Word} (v : Word)
    (hwf : Memory.wf s.capacity s.mem = true) (hal : addr.toNat % 4 = 0) (hin : addr.toNat + 4 ≤ s.capacity) :
    (s.writeBytes addr.toNat (bytesOfWord v)).memRead32 addr = .ok v := by
  have hbyte (k : Nat) (hk : k < 4) : (s.writeBytes addr.toNat (bytesOfWord v)).readByte (addr.toNat + k) =
      (bytesOfWord v)[k] := s.readByte_writeBytes_in addr.toNat k (bytesOfWord v) hwf hin hk
  rw [State.memRead32_ok hal (by simpa using hin), hbyte 1 (by omega), hbyte 2 (by omega), hbyte 3 (by omega),
    show State.readByte _ addr.toNat = _ from hbyte 0 (by omega)]
  exact congrArg Except.ok (wordOfBytes_byteOf v)

/-! ### Word loads and stores that complete -/

/-- SW to an aligned address within the capacity writes the bytes of x[rs2] there and advances the pc (R522). -/
theorem exec_sw_ok {s : State} {rs2 rs1 : Reg} {imm : BitVec 12}
    (hal : (s.effectiveAddress rs1 (immS imm)).toNat % 4 = 0)
    (hin : (s.effectiveAddress rs1 (immS imm)).toNat + 4 ≤ s.capacity) :
    exec (.sw rs2 imm rs1) s =
      .next ((s.writeBytes (s.effectiveAddress rs1 (immS imm)).toNat (bytesOfWord (s.readReg rs2))).commit
        none none s.pcNext) := by
  change s.finishStore (s.memWrite32 _ _) = _
  rw [State.memWrite32_ok _ hal hin]; rfl

/-- LW stages what the port reads for rd and advances the pc (R502). -/
theorem exec_lw_ok {s : State} {rd rs1 : Reg} {imm : BitVec 12} {v : Word}
    (h : s.memRead32 (s.effectiveAddress rs1 (immI imm)) = .ok v) :
    exec (.lw rd imm rs1) s = .next (s.commit (some (rd, v)) none s.pcNext) := by
  change s.finishLoad rd (s.memRead32 _) = _
  rw [h]; rfl

/-- A store's completion leaves the registers, and so every effective address. -/
theorem State.effectiveAddress_store (s : State) (a : Nat) (bytes : List Byte) (n : Word) (rs1 : Reg) (imm : Word) :
    ((s.writeBytes a bytes).commit none none n).effectiveAddress rs1 imm = s.effectiveAddress rs1 imm := by
  rw [State.effectiveAddress, State.readReg_commit_none, State.readReg_of_x (s.writeBytes_x a bytes)]; rfl

/-- Settles O22: SW writes the word's bytes and moves no effective address, so LW reads the word from them and writes it
to rd, which is not x0. -/
theorem storedWordLoadsBack : Obligations.StoredWordLoadsBack := by
  intro s rs2 rs1 rd rs1' imm imm' hwf hok hea hrd
  obtain ⟨hal, hin⟩ := hok
  refine ⟨_, _, exec_sw_ok hal hin, exec_lw_ok (v := s.readReg rs2) ?_, ?_⟩
  · rw [State.effectiveAddress_store, hea, State.memRead32_commit]
    exact State.memRead32_writeBytes_bytesOfWord _ hwf hal hin
  · rw [State.readReg_commit_some, if_pos ⟨rfl, hrd⟩]

end Sys2Proof.Machine
end

section
/-! Proofs about the exceptions family (spec/60_exceptions.md): what the trace hook adds to the trace output, and which
steps add a record. -/

-- one theorem at a time: the checker's memory limit does not hold a stack for each of many theorems at once
set_option Elab.async false

namespace Sys2Proof.Machine

/-! ### What the trace hook adds to the trace output -/

/-- With the trace flag false nothing is output (R781). -/
theorem State.emit_off {s : State} (h : s.trace = false) (r : TraceRecord) : s.emit r = s := by
  simp [State.emit, h]

/-- With the trace flag true the record is added to the output (R781). -/
theorem State.emit_traceOut_on {s : State} (h : s.trace = true) (r : TraceRecord) :
    (s.emit r).traceOut = s.traceOut ++ [r] := by
  simp [State.emit, h]

theorem traceInstr_off {t : State} (h : t.trace = false) (s : State) (word : Word) (i : Instr) :
    traceInstr s word i t = t := by
  rw [traceInstr, State.emit_off h, ite_self]

/-- With the trace flag true, an instruction that ends in a run state whose record is due has it output. -/
theorem traceInstr_traceOut_on {t : State} (h : t.trace = true) (hdue : emitsRecord t.run = true) (s : State)
    (word : Word) (i : Instr) :
    (traceInstr s word i t).traceOut = t.traceOut ++ [traceRecord s.pc word i t] := by
  rw [traceInstr, if_pos hdue, State.emit_traceOut_on h]

/-! ### An instruction's own meaning neither traces nor moves the trace flag -/

@[simp] theorem Effect.apply_trace {s : State} (e : Effect s) : e.apply.trace = s.trace := by
  simp [Effect.apply]

@[simp] theorem Effect.apply_traceOut {s : State} (e : Effect s) : e.apply.traceOut = s.traceOut := by
  simp [Effect.apply]

theorem exec_keeps_tracing {i : Instr} {s t : State} (h : exec i s = .next t) :
    t.trace = s.trace ∧ t.traceOut = s.traceOut := by
  obtain ⟨r, hhalt⟩ | ⟨e, heff⟩ := exec_cases i s
  · obtain rfl := Host.Outcome.next.inj (h.symm.trans hhalt)
    exact ⟨rfl, rfl⟩
  · obtain rfl := Host.Outcome.next.inj (h.symm.trans heff)
    exact ⟨e.apply_trace, e.apply_traceOut⟩

/-! ### Steps that add a record, and steps that do not -/

/-- A completed step with the trace flag true adds the record of its instruction. -/
theorem step_completed_traceOut {s t : State} (h : step s = .next t) (htr : s.trace = true) (ht : t.run = .running) :
    ∃ word i, ∃ e : Effect s, t.traceOut = s.traceOut ++ [traceRecord s.pc word i e.apply] := by
  obtain ⟨word, i, e, -, -, -, rfl⟩ := step_completed h ht
  have hdue : emitsRecord e.apply.run = true := by rw [← traceInstr_run s word i, ht]; rfl
  exact ⟨word, i, e, by rw [traceInstr_traceOut_on (e.apply_trace.trans htr) hdue, e.apply_traceOut]⟩

/-- With the trace flag false no step, completed or halting, adds a record. -/
theorem step_traceOut_off {s t : State} (h : step s = .next t) (htr : s.trace = false) : t.traceOut = s.traceOut := by
  obtain ⟨r, -, hstep⟩ | ⟨word, err, -, -, hstep⟩ | ⟨word, i, u, -, -, hexec, hstep⟩ :=
    step_cases s (running_of_step_next h)
  all_goals obtain rfl := Host.Outcome.next.inj (h.symm.trans hstep)
  · rfl
  · rw [State.halt_traceOut, State.emit_off htr]
  · obtain ⟨hflag, hout⟩ := exec_keeps_tracing hexec
    rw [traceInstr_off (hflag.trans htr), hout]

/-- Settles O53: a completed step emits its instruction's record, and the hook emits nothing while the flag is false. -/
theorem normalStepEmitsOneRecord : Obligations.NormalStepEmitsOneRecord := by
  intro s t h
  refine ⟨fun htr ht => ?_, step_traceOut_off h⟩
  obtain ⟨word, i, e, hout⟩ := step_completed_traceOut h htr ht
  exact ⟨_, hout⟩

/-- A Running core steps to what the meaning of the fetched and decoded instruction answers, traced. -/
theorem step_of_exec {s t : State} {word : Word} {i : Instr} (hrun : s.run = .running) (hfetch : s.fetch = .ok word)
    (hdec : decode word = .ok i) (hexec : exec i s = .next t) : step s = .next (traceInstr s word i t) := by
  simp [step, hrun, hfetch, hdec, hexec, State.afterInstr]

/-- An instruction that halts for a reason whose record is due (R782) emits its record and ends the step halted. -/
theorem step_halting_with_record {s : State} {word : Word} {i : Instr} {r : HaltReason} (hrun : s.run = .running)
    (htr : s.trace = true) (hfetch : s.fetch = .ok word) (hdec : decode word = .ok i)
    (hexec : exec i s = .next (s.halt r)) (hdue : emitsRecord (.halted r) = true) :
    ∃ t, step s = .next t ∧ t.run = .halted r ∧
      t.traceOut = s.traceOut ++ [traceRecord s.pc word i (s.halt r)] :=
  ⟨_, step_of_exec hrun hfetch hdec hexec, traceInstr_run _ _ _ _,
    traceInstr_traceOut_on (t := s.halt r) htr hdue _ _ _⟩

/-- Settles O54: ECALL and EBREAK halt for a reason whose record is due, and their records have no operands and no
writeback field. -/
theorem ecallAndEbreakRecords : Obligations.EcallAndEbreakRecords := by
  intro s hrun htr
  constructor <;> intro hfetch
  · exact step_halting_with_record (i := .ecall) hrun htr hfetch (by decide) rfl rfl
  · exact step_halting_with_record (i := .ebreak) hrun htr hfetch (by decide) rfl rfl

end Sys2Proof.Machine
end

section
/-! Proofs about the reset and hazards family (spec/70_reset_and_hazards.md): what the core reads as after reset. -/

-- one theorem at a time: the checker's memory limit does not hold a stack for each of many theorems at once
set_option Elab.async false

namespace Sys2Proof.Machine

/-! ### What the registers and CSRs read as after reset -/

@[simp] theorem State.hostReset_x (s : State) (p : Word) : (s.hostReset p).x = Vector.replicate 32 0 := rfl

@[simp] theorem State.hostReset_readReg (s : State) (p : Word) (r : Reg) : (s.hostReset p).readReg r = 0 := by
  simp [State.readReg]

/-- The CSR file is empty after reset, and an unlisted CSR reads 0 (R800). -/
@[simp] theorem State.hostReset_readCsr (s : State) (p : Word) (a : CsrAddr) : (s.hostReset p).readCsr a = 0 := rfl

/-- Settles O49: reset's fields read back as it set them whatever the run state was, and only a Running core has a
step. -/
theorem resetClearsRegistersAndCsrs : Obligations.ResetClearsRegistersAndCsrs := fun s p =>
  ⟨s.hostReset_readReg p, s.hostReset_x p, s.hostReset_readCsr p, s.hostReset_pc p, s.hostReset_run p,
    fun _ _ hstep _ => running_of_step_next hstep⟩

end Sys2Proof.Machine
end

section
/-! Proofs about the encoding (spec/30_encoding.md): decode and encode are inverse, the fields of a word by arithmetic are
the decoder's, and every word of a row of the opcode table decodes to the instruction built from its fields. -/

-- one theorem at a time: the checker's memory limit does not hold a stack for each of many theorems at once
set_option Elab.async false

namespace Sys2Proof

open Sys2Proof.Claims

/-! ### Decoding an encoded instruction -/

/-- The decoder reads back each field where the encoder put it: the opcode leads to the group, funct3 and funct7 within the
group to the instruction, and its operands are the fields of the format. -/
theorem decode_encode {i : Instr} (h : i.wf = true) : decode (encode i) = .ok i := by
  cases i
  case ecall | ebreak => decide
  case csrrw | csrrs | csrrc | csrrwi | csrrsi | csrrci =>
    simp [encode, decode_of_funct3, decodeByOpcode, decodeSystem]
  case fence hi rs1 f3 rd =>
    have hf3 : f3 ≠ 1#3 := by simpa [Instr.wf, fenceFunct3Ok] using h
    simp [encode, decode_of_opcode, decodeByOpcode, decodeFence, hf3]
  case fenceI => simp [encode, decode_of_opcode, decodeByOpcode, decodeFence]
  case addi | slti | sltiu | xori | ori | andi | slli | srli | srai =>
    simp [encode, decode_of_opcode, decodeByOpcode, decodeAluImm]
  case lb | lh | lw | lbu | lhu => simp [encode, decode_of_opcode, decodeByOpcode, decodeLoad]
  case sb | sh | sw => simp [encode, decode_of_opcode, decodeByOpcode, decodeStore]
  case jal rd offset => simp [encode, decode_of_opcode, decodeByOpcode, encodeJ_immJ offset _ _ h]
  case jalr => simp [encode, decode_of_opcode, decodeByOpcode, decodeJalr]
  case lui | auipc => simp [encode, decode_of_opcode, decodeByOpcode]
  case beq rs1 rs2 offset | bne rs1 rs2 offset | blt rs1 rs2 offset | bge rs1 rs2 offset | bltu rs1 rs2 offset
      | bgeu rs1 rs2 offset =>
    simp [encode, decode_of_opcode, decodeByOpcode, decodeBranch, encodeB_immB offset _ _ _ _ h]
  case add | sub | sll | slt | sltu | xor | srl | sra | or | and =>
    simp [encode, decode_of_opcode, decodeByOpcode, decodeAluReg]

/-- Settles O2: the encoder's fields are read back, group by group. -/
theorem decodeOfEncode : Obligations.DecodeOfEncode := fun _ h => decode_encode h

/-! ### Encoding a decoded word -/

section Fields
variable {w : Word} {op : BitVec 7} {f3 : BitVec 3} {f7 : BitVec 7}

theorem encodeR_fields (hop : InstWord.opcode w = op) (h3 : InstWord.funct3 w = f3) (h7 : InstWord.funct7 w = f7) :
    encodeR f7 (InstWord.shamt w) (InstWord.rs1 w) f3 (InstWord.rd w) op = w := by
  subst hop h3 h7; exact encodeR_of_fields w

theorem encodeI_fields (hop : InstWord.opcode w = op) (h3 : InstWord.funct3 w = f3) :
    encodeI (InstWord.immI w) (InstWord.zimm w) f3 (InstWord.rd w) op = w := by
  subst hop h3; exact encodeI_of_fields w

theorem encodeS_fields (hop : InstWord.opcode w = op) (h3 : InstWord.funct3 w = f3) :
    encodeS (InstWord.immS w) (InstWord.rs2 w) (InstWord.rs1 w) f3 op = w := by
  subst hop h3; exact encodeS_of_fields w

theorem encodeB_fields (hop : InstWord.opcode w = op) (h3 : InstWord.funct3 w = f3) :
    encodeB (InstWord.immB w) (InstWord.rs2 w) (InstWord.rs1 w) f3 op = w := by
  subst hop h3; exact encodeB_of_fields w

theorem encodeU_fields (hop : InstWord.opcode w = op) : encodeU (InstWord.imm20 w) (InstWord.rd w) op = w := by
  subst hop; exact encodeU_of_fields w

theorem encodeJ_fields (hop : InstWord.opcode w = op) : encodeJ (InstWord.immJ w) (InstWord.rd w) op = w := by
  subst hop; exact encodeJ_of_fields w

end Fields

/-- `i` is well-formed and `w` is its word. -/
def Encodes (w : Word) (i : Instr) : Prop := i.wf = true ∧ encode i = w

section Groups
variable {w : Word} {i : Instr}

theorem decodeSystem_encodes (hop : InstWord.opcode w = 0x73#7) (h : decodeSystem w = .ok i) : Encodes w i := by
  unfold decodeSystem at h
  split at h <;> cases h <;> exact ⟨rfl, encodeI_fields hop ‹_›⟩

theorem decodeFence_encodes (hop : InstWord.opcode w = 0x0F#7) : Encodes w (decodeFence w) := by
  unfold decodeFence
  split
  · exact ⟨rfl, encodeI_fields hop ‹_›⟩
  · exact ⟨by simpa [Instr.wf, fenceFunct3Ok], encodeI_fields hop rfl⟩

theorem decodeAluImm_encodes (hop : InstWord.opcode w = 0x13#7) (h : decodeAluImm w = .ok i) : Encodes w i := by
  unfold decodeAluImm at h
  split at h
  case h_7 | h_8 => split at h <;> cases h <;> exact ⟨rfl, encodeR_fields hop ‹_› ‹_›⟩
  all_goals cases h <;> exact ⟨rfl, encodeI_fields hop ‹_›⟩

theorem decodeLoad_encodes (hop : InstWord.opcode w = 0x03#7) (h : decodeLoad w = .ok i) : Encodes w i := by
  unfold decodeLoad at h
  split at h <;> cases h <;> exact ⟨rfl, encodeI_fields hop ‹_›⟩

theorem decodeStore_encodes (hop : InstWord.opcode w = 0x23#7) (h : decodeStore w = .ok i) : Encodes w i := by
  unfold decodeStore at h
  split at h <;> cases h <;> exact ⟨rfl, encodeS_fields hop ‹_›⟩

theorem decodeJalr_encodes (hop : InstWord.opcode w = 0x67#7) (h : decodeJalr w = .ok i) : Encodes w i := by
  unfold decodeJalr at h
  split at h
  · cases h; exact ⟨rfl, encodeI_fields hop ‹_›⟩
  · cases h

theorem decodeBranch_encodes (hop : InstWord.opcode w = 0x63#7) (h : decodeBranch w = .ok i) : Encodes w i := by
  unfold decodeBranch at h
  split at h <;> cases h <;> exact ⟨immB_even w, encodeB_fields hop ‹_›⟩

theorem decodeAluReg_encodes (hop : InstWord.opcode w = 0x33#7) (h : decodeAluReg w = .ok i) : Encodes w i := by
  unfold decodeAluReg at h
  split at h
  case h_3 => cases h
  all_goals split at h <;> cases h <;> exact ⟨rfl, encodeR_fields hop ‹_› ‹_›⟩

end Groups

/-- A word the decoder accepts is the word of the instruction, which is well-formed: each group's fields fill the word. -/
theorem decode_encodes {w : Word} {i : Instr} (h : decode w = .ok i) : Encodes w i := by
  unfold decode at h
  split at h
  · cases h; exact ⟨rfl, by simp_all [encode]⟩
  split at h
  · cases h; exact ⟨rfl, by simp_all [encode]⟩
  unfold decodeByOpcode at h
  split at h <;> rename_i hop
  · exact decodeSystem_encodes hop h
  · cases h; exact decodeFence_encodes hop
  · exact decodeAluImm_encodes hop h
  · exact decodeLoad_encodes hop h
  · exact decodeStore_encodes hop h
  · cases h; exact ⟨immJ_even w, encodeJ_fields hop⟩
  · exact decodeJalr_encodes hop h
  · cases h; exact ⟨rfl, encodeU_fields hop⟩
  · cases h; exact ⟨rfl, encodeU_fields hop⟩
  · exact decodeBranch_encodes hop h
  · exact decodeAluReg_encodes hop h
  · cases h

/-- Settles O3: the decoded fields fill the word, group by group. -/
theorem encodeOfDecode : Obligations.EncodeOfDecode := fun _ _ h => decode_encodes h

/-- Settles O1: the decoder computes each of the words. -/
theorem specWordsDecode : Obligations.SpecWordsDecode := by
  unfold Obligations.SpecWordsDecode; decide

end Sys2Proof
end

section
/-! The fields of a word by arithmetic (`Claims.bits` and the fields built on it) are the decoder's fields, and a row of the
opcode table is a set of words whose opcode and functs are given. -/

-- one theorem at a time: the checker's memory limit does not hold a stack for each of many theorems at once
set_option Elab.async false

namespace Sys2Proof

open Sys2Proof.Claims

/-! ### Fields by arithmetic -/

/-- Appending is multiplying the upper part by the lower part's range and adding. -/
theorem toNat_append_eq_add {n m : Nat} (x : BitVec n) (y : BitVec m) :
    (x ++ y).toNat = x.toNat * 2 ^ m + y.toNat := by
  rw [BitVec.toNat_append, ← Nat.shiftLeft_add_eq_or_of_lt y.isLt, Nat.shiftLeft_eq]

theorem bits_eq_toNat (w : Word) (hi lo n : Nat) (h : hi - lo + 1 = n) : bits w hi lo = (w.extractLsb' lo n).toNat := by
  rw [bits, h, BitVec.extractLsb'_toNat, Nat.shiftRight_eq_div_pow]

@[simp] theorem bits_opcode (w : Word) : bits w 6 0 = (InstWord.opcode w).toNat := bits_eq_toNat w 6 0 7 rfl

@[simp] theorem bits_funct3 (w : Word) : bits w 14 12 = (InstWord.funct3 w).toNat := bits_eq_toNat w 14 12 3 rfl

@[simp] theorem bits_funct7 (w : Word) : bits w 31 25 = (InstWord.funct7 w).toNat := bits_eq_toNat w 31 25 7 rfl

/-- A field read as a number is the field. -/
theorem ofNat_bits (w : Word) (hi lo n : Nat) (h : hi - lo + 1 = n) : BitVec.ofNat n (bits w hi lo) = w.extractLsb' lo n := by
  rw [bits_eq_toNat w hi lo n h, BitVec.ofNat_toNat, BitVec.setWidth_eq]

theorem fiveAt_eq (w : Word) (lo : Nat) : fiveAt w lo = w.extractLsb' lo 5 := ofNat_bits w (lo + 4) lo 5 (by omega)

theorem regAt_eq (w : Word) (lo : Nat) : regAt w lo = (w.extractLsb' lo 5).toFin := by
  rw [regAt, bits_eq_toNat w (lo + 4) lo 5 (by omega)]
  exact Fin.ofNat_val_eq_self (w.extractLsb' lo 5).toFin

@[simp] theorem regAt_rd (w : Word) : regAt w 7 = InstWord.rd w := regAt_eq w 7

@[simp] theorem regAt_rs1 (w : Word) : regAt w 15 = InstWord.rs1 w := regAt_eq w 15

@[simp] theorem regAt_rs2 (w : Word) : regAt w 20 = InstWord.rs2 w := regAt_eq w 20

@[simp] theorem fiveAt_zimm (w : Word) : fiveAt w 15 = InstWord.zimm w := fiveAt_eq w 15

@[simp] theorem fiveAt_shamt (w : Word) : fiveAt w 20 = InstWord.shamt w := fiveAt_eq w 20

@[simp] theorem immIAt_eq (w : Word) : immIAt w = InstWord.immI w := ofNat_bits w 31 20 12 rfl

@[simp] theorem csrAt_eq (w : Word) : csrAt w = InstWord.csrAddr w := ofNat_bits w 31 20 12 rfl

@[simp] theorem imm20At_eq (w : Word) : imm20At w = InstWord.imm20 w := ofNat_bits w 31 12 20 rfl

/-- The scattered immediates: each is the concatenation whose value the sum of the shifted parts is. -/
@[simp] theorem immSAt_eq (w : Word) : immSAt w = InstWord.immS w := by
  have h : (InstWord.immS w).toNat = bits w 31 25 * 2 ^ 5 + bits w 11 7 := by
    simp only [InstWord.immS, toNat_append_eq_add, bits_eq_toNat w 31 25 7, bits_eq_toNat w 11 7 5]
  rw [immSAt, ← h, BitVec.ofNat_toNat, BitVec.setWidth_eq]

@[simp] theorem immBAt_eq (w : Word) : immBAt w = InstWord.immB w := by
  have h : (InstWord.immB w).toNat =
      bits w 31 31 * 2 ^ 12 + bits w 7 7 * 2 ^ 11 + bits w 30 25 * 2 ^ 5 + bits w 11 8 * 2 := by
    simp only [InstWord.immB, toNat_append_eq_add, bits_eq_toNat w 31 31 1, bits_eq_toNat w 7 7 1,
      bits_eq_toNat w 30 25 6, bits_eq_toNat w 11 8 4, BitVec.toNat_ofNat]
    omega
  rw [immBAt, ← h, BitVec.ofNat_toNat, BitVec.setWidth_eq]

@[simp] theorem immJAt_eq (w : Word) : immJAt w = InstWord.immJ w := by
  have h : (InstWord.immJ w).toNat =
      bits w 31 31 * 2 ^ 20 + bits w 19 12 * 2 ^ 12 + bits w 20 20 * 2 ^ 11 + bits w 30 21 * 2 := by
    simp only [InstWord.immJ, toNat_append_eq_add, bits_eq_toNat w 31 31 1, bits_eq_toNat w 19 12 8,
      bits_eq_toNat w 20 20 1, bits_eq_toNat w 30 21 10, BitVec.toNat_ofNat]
    omega
  rw [immJAt, ← h, BitVec.ofNat_toNat, BitVec.setWidth_eq]

/-! ### Rows of the opcode table -/

/-- Bits of a field that the mask holds whole are the value's. -/
theorem field_of_mask {lo n : Nat} {w mask value : Word} (h : w &&& mask = value)
    (hm : mask.extractLsb' lo n = BitVec.allOnes n) : w.extractLsb' lo n = value.extractLsb' lo n := by
  rw [← h, BitVec.extractLsb'_and, hm, BitVec.and_allOnes]

section Rows
variable {value : Word} {build : Word → Instr}

/-- A row holds if every word of the row is the word of the instruction built from it. -/
theorem row_of_encodes {mask : Word} (h : ∀ w, w &&& mask = value → Encodes w (build w)) : Row mask value build := by
  intro w hw
  obtain ⟨hwf, henc⟩ := h w hw
  rw [← decode_encode hwf, henc]

/-- A row of a format that has only the opcode fixed. -/
theorem row_of_opcode (h : ∀ w, InstWord.opcode w = InstWord.opcode value → Encodes w (build w)) :
    Row 0x0000007F#32 value build :=
  row_of_encodes fun w hw => h w (field_of_mask hw (by decide))

/-- A row of a format that has the opcode and funct3 fixed. -/
theorem row_of_funct3
    (h : ∀ w, InstWord.opcode w = InstWord.opcode value → InstWord.funct3 w = InstWord.funct3 value →
      Encodes w (build w)) :
    Row 0x0000707F#32 value build :=
  row_of_encodes fun w hw => h w (field_of_mask hw (by decide)) (field_of_mask hw (by decide))

/-- A row of a format that has the opcode, funct3 and funct7 fixed. -/
theorem row_of_funct7
    (h : ∀ w, InstWord.opcode w = InstWord.opcode value → InstWord.funct3 w = InstWord.funct3 value →
      InstWord.funct7 w = InstWord.funct7 value → Encodes w (build w)) :
    Row 0xFE00707F#32 value build :=
  row_of_encodes fun w hw =>
    h w (field_of_mask hw (by decide)) (field_of_mask hw (by decide)) (field_of_mask hw (by decide))

/-- A row of the R format: `build` takes its operands from rd, rs1 and rs2 or shamt. Here and in the next five lemmas both
facts about `build` hold by the definitions of `wf` and `encode`. -/
theorem row_R (hwf : Instr.wf ∘ build = fun _ => true)
    (henc : encode ∘ build = fun w => encodeR (InstWord.funct7 value) (fiveAt w 20) (regAt w 15)
      (InstWord.funct3 value) (regAt w 7) (InstWord.opcode value)) :
    Row 0xFE00707F#32 value build :=
  row_of_funct7 fun w hop h3 h7 =>
    ⟨congrFun hwf w, (congrFun henc w).trans (by simpa using encodeR_fields hop h3 h7)⟩

/-- A row of the I format: `build` takes its operands from rd, rs1 or zimm, and inst[31:20]. -/
theorem row_I (hwf : Instr.wf ∘ build = fun _ => true)
    (henc : encode ∘ build = fun w => encodeI (immIAt w) (fiveAt w 15) (InstWord.funct3 value) (regAt w 7)
      (InstWord.opcode value)) :
    Row 0x0000707F#32 value build :=
  row_of_funct3 fun w hop h3 => ⟨congrFun hwf w, (congrFun henc w).trans (by simpa using encodeI_fields hop h3)⟩

/-- A row of the S format. -/
theorem row_S (hwf : Instr.wf ∘ build = fun _ => true)
    (henc : encode ∘ build = fun w => encodeS (immSAt w) (regAt w 20) (regAt w 15) (InstWord.funct3 value)
      (InstWord.opcode value)) :
    Row 0x0000707F#32 value build :=
  row_of_funct3 fun w hop h3 => ⟨congrFun hwf w, (congrFun henc w).trans (by simpa using encodeS_fields hop h3)⟩

/-- A row of the B format, whose offset put together is even. -/
theorem row_B (hwf : Instr.wf ∘ build = fun w => branchOffsetOk (immBAt w))
    (henc : encode ∘ build = fun w => encodeB (immBAt w) (regAt w 20) (regAt w 15) (InstWord.funct3 value)
      (InstWord.opcode value)) :
    Row 0x0000707F#32 value build :=
  row_of_funct3 fun w hop h3 =>
    ⟨(congrFun hwf w).trans (by rw [immBAt_eq, immB_even]),
      (congrFun henc w).trans (by simpa using encodeB_fields hop h3)⟩

/-- A row of the U format. -/
theorem row_U (hwf : Instr.wf ∘ build = fun _ => true)
    (henc : encode ∘ build = fun w => encodeU (imm20At w) (regAt w 7) (InstWord.opcode value)) :
    Row 0x0000007F#32 value build :=
  row_of_opcode fun w hop => ⟨congrFun hwf w, (congrFun henc w).trans (by simpa using encodeU_fields hop)⟩

/-- A row of the J format, whose offset put together is even. -/
theorem row_J (hwf : Instr.wf ∘ build = fun w => jumpOffsetOk (immJAt w))
    (henc : encode ∘ build = fun w => encodeJ (immJAt w) (regAt w 7) (InstWord.opcode value)) :
    Row 0x0000007F#32 value build :=
  row_of_opcode fun w hop =>
    ⟨(congrFun hwf w).trans (by rw [immJAt_eq, immJ_even]),
      (congrFun henc w).trans (by simpa using encodeJ_fields hop)⟩

end Rows

/-! ### Which words are rejected -/

section Rejected
variable {w : Word}

theorem decodeSystem_error : (∃ e, decodeSystem w = .error e) ↔
    (InstWord.funct3 w).toNat = 4 ∨ (InstWord.funct3 w).toNat = 0 := by
  unfold decodeSystem
  split <;> simp_all [BitVec.toNat_eq]
  omega

theorem decodeAluImm_error : (∃ e, decodeAluImm w = .error e) ↔
    ((InstWord.funct3 w).toNat = 1 ∧ (InstWord.funct7 w).toNat ≠ 0) ∨
    ((InstWord.funct3 w).toNat = 5 ∧ (InstWord.funct7 w).toNat ≠ 0 ∧ (InstWord.funct7 w).toNat ≠ 0x20) := by
  unfold decodeAluImm
  split
  case h_7 | h_8 => split <;> simp_all [BitVec.toNat_eq]
  all_goals simp_all [BitVec.toNat_eq]
  omega

theorem decodeLoad_error : (∃ e, decodeLoad w = .error e) ↔
    (InstWord.funct3 w).toNat = 3 ∨ (InstWord.funct3 w).toNat = 6 ∨ (InstWord.funct3 w).toNat = 7 := by
  unfold decodeLoad
  split <;> simp_all [BitVec.toNat_eq]
  omega

theorem decodeStore_error : (∃ e, decodeStore w = .error e) ↔ 3 ≤ (InstWord.funct3 w).toNat := by
  unfold decodeStore
  split <;> simp_all [BitVec.toNat_eq]
  omega

theorem decodeJalr_error : (∃ e, decodeJalr w = .error e) ↔ (InstWord.funct3 w).toNat ≠ 0 := by
  unfold decodeJalr
  split <;> simp_all [BitVec.toNat_eq]

theorem decodeBranch_error : (∃ e, decodeBranch w = .error e) ↔
    (InstWord.funct3 w).toNat = 2 ∨ (InstWord.funct3 w).toNat = 3 := by
  unfold decodeBranch
  split <;> simp_all [BitVec.toNat_eq]
  omega

theorem decodeAluReg_error : (∃ e, decodeAluReg w = .error e) ↔
    ((InstWord.funct7 w).toNat ≠ 0 ∧ (InstWord.funct7 w).toNat ≠ 0x20) ∨
    ((InstWord.funct7 w).toNat = 0x20 ∧ (InstWord.funct3 w).toNat ≠ 0 ∧ (InstWord.funct3 w).toNat ≠ 5) := by
  unfold decodeAluReg
  split
  case h_1 => split <;> simp_all [BitVec.toNat_eq]; omega
  case h_2 => split <;> simp_all [BitVec.toNat_eq]
  case h_3 => simp_all [BitVec.toNat_eq]

end Rejected

/-- Settles O4: the two whole words are accepted, and for every other word each group's own rejections are the table's. -/
theorem illegalWordsAreThoseOfTheTable : Obligations.IllegalWordsAreThoseOfTheTable := by
  intro w
  simp only [bits_opcode, bits_funct3, bits_funct7]
  unfold decode
  split
  · next h =>
    subst h
    simp [show InstWord.opcode ecallWord = 0x73#7 from rfl, show InstWord.funct3 ecallWord = 0#3 from rfl]
    decide
  split
  · next h =>
    subst h
    simp [show InstWord.opcode ebreakWord = 0x73#7 from rfl, show InstWord.funct3 ebreakWord = 0#3 from rfl]
    decide
  unfold decodeByOpcode
  split
  all_goals
    next hop => simp_all [decodeSystem_error, decodeAluImm_error, decodeLoad_error, decodeStore_error, decodeJalr_error,
      decodeBranch_error, decodeAluReg_error, ecallWord, ebreakWord, BitVec.toNat_eq]

/-- Settles O5: a word that decodes to ECALL or EBREAK is the whole word that encodes it. -/
theorem ecallAndEbreakHalt : Obligations.EcallAndEbreakHalt :=
  ⟨fun _ => ⟨fun h => (decode_encodes h).2.symm, fun h => h ▸ by decide⟩,
    fun _ => ⟨fun h => (decode_encodes h).2.symm, fun h => h ▸ by decide⟩, fun _ => ⟨rfl, rfl⟩⟩

end Sys2Proof
end

section
/-! Words by integer arithmetic: each operation of the meanings gives the value that the statements spell out with numbers
(spec/00_scope.md R14, R15), and bytes put together give their little-endian number (spec/20_memory.md R213). -/

-- one theorem at a time: the checker's memory limit does not hold a stack for each of many theorems at once
set_option Elab.async false

namespace Sys2Proof.Machine

open Sys2Proof.Claims

/-! ### Sums and differences modulo 2^32 -/

/-- Sign extension is the two's-complement reading, written again in 32 bits (R15). -/
theorem sext32_eq_sextVal {n : Nat} (imm : BitVec n) : sext32 imm = sextVal imm := rfl

theorem add_sext32_eq_plusImm {n : Nat} (a : Word) (imm : BitVec n) : a + sext32 imm = plusImm a imm := by
  rw [plusImm, BitVec.ofInt_add, BitVec.ofInt_toInt]; rfl

/-- The sum with a sign-extended immediate, as a number (decision D6). -/
theorem toNat_add_sext32 {n : Nat} (a : Word) (imm : BitVec n) :
    ((a + sext32 imm).toNat : Int) = ((a.toNat : Int) + imm.toInt) % 2 ^ 32 := by
  have h : a + sext32 imm = BitVec.ofInt 32 (a.toNat + imm.toInt) := by
    rw [BitVec.ofInt_add, BitVec.ofInt_natCast, BitVec.ofNat_toNat, BitVec.setWidth_eq]; rfl
  rw [h, BitVec.toNat_ofInt, Int.toNat_of_nonneg (Int.emod_nonneg _ (by decide))]
  norm_cast

theorem add_eq_ofNat (a b : Word) : a + b = BitVec.ofNat 32 (a.toNat + b.toNat) := by
  rw [BitVec.ofNat_add, BitVec.ofNat_toNat, BitVec.ofNat_toNat, BitVec.setWidth_eq, BitVec.setWidth_eq]

theorem sub_eq_ofInt (a b : Word) : a - b = BitVec.ofInt 32 (a.toInt - b.toInt) := by
  apply BitVec.eq_of_toInt_eq
  rw [BitVec.toInt_sub, BitVec.toInt_ofInt]

/-! ### Bitwise operations -/

theorem xor_eq_ofNat (a b : Word) : a ^^^ b = BitVec.ofNat 32 (a.toNat ^^^ b.toNat) := by
  rw [← BitVec.toNat_xor, BitVec.ofNat_toNat, BitVec.setWidth_eq]

theorem or_eq_ofNat (a b : Word) : a ||| b = BitVec.ofNat 32 (a.toNat ||| b.toNat) := by
  rw [← BitVec.toNat_or, BitVec.ofNat_toNat, BitVec.setWidth_eq]

theorem and_eq_ofNat (a b : Word) : a &&& b = BitVec.ofNat 32 (a.toNat &&& b.toNat) := by
  rw [← BitVec.toNat_and, BitVec.ofNat_toNat, BitVec.setWidth_eq]

/-! ### Shifts -/

theorem shiftLeft_eq_ofNat (v : Word) (n : BitVec 5) : shiftLeft v n = BitVec.ofNat 32 (v.toNat * 2 ^ n.toNat) := by
  rw [← Nat.shiftLeft_eq]; rfl

theorem shiftRightLogical_eq_ofNat (v : Word) (n : BitVec 5) :
    shiftRightLogical v n = BitVec.ofNat 32 (v.toNat / 2 ^ n.toNat) := by
  rw [shiftRightLogical, ← Nat.shiftRight_eq_div_pow, ← BitVec.toNat_ushiftRight, BitVec.ofNat_toNat,
    BitVec.setWidth_eq]

theorem shiftRightArith_eq_ofInt (v : Word) (n : BitVec 5) :
    shiftRightArith v n = BitVec.ofInt 32 (v.toInt / 2 ^ n.toNat) := by
  have h := Int.shiftRight_eq_div_pow v.toInt n.toNat
  push_cast at h
  rw [← h]; rfl

/-- A register shift uses x[rs2] modulo 32 (decision D13). -/
theorem regShamt_toNat (v : Word) : (regShamt v).toNat = v.toNat % 32 := by
  simp [regShamt]

/-! ### Comparisons -/

theorem ltSigned_eq (a b : Word) : ltSigned a b = decide (a.toInt < b.toInt) := BitVec.slt_eq_decide

theorem ltUnsigned_eq (a b : Word) : ltUnsigned a b = decide (a.toNat < b.toNat) := BitVec.ult_eq_decide

theorem boolWord_decide (p : Prop) [Decidable p] : boolWord (decide p) = oneIf p := by
  simp [boolWord, oneIf]

theorem boolWord_ltSigned (a b : Word) : boolWord (ltSigned a b) = oneIf (a.toInt < b.toInt) := by
  rw [ltSigned_eq, boolWord_decide]

theorem boolWord_ltUnsigned (a b : Word) : boolWord (ltUnsigned a b) = oneIf (a.toNat < b.toNat) := by
  rw [ltUnsigned_eq, boolWord_decide]

/-- A sign-extended immediate reads as the immediate does. -/
theorem toInt_sext32 {n : Nat} (imm : BitVec n) (h : n ≤ 32) : (sext32 imm).toInt = imm.toInt :=
  BitVec.toInt_signExtend_of_le h

/-! ### Clearing low bits -/

theorem toNat_clear_low (v : Word) (n : Nat) : (v &&& BitVec.allOnes 32 <<< n).toNat = v.toNat / 2 ^ n * 2 ^ n := by
  rw [← BitVec.shiftLeft_ushiftRight, BitVec.toNat_shiftLeft, BitVec.toNat_ushiftRight, Nat.shiftRight_eq_div_pow,
    Nat.shiftLeft_eq, Nat.mod_eq_of_lt (Nat.lt_of_le_of_lt (Nat.div_mul_le_self _ _) v.isLt)]

/-- JALR's target is the even number at or just below the sum (R541). -/
theorem jalrTarget_toNat (base imm : Word) : (jalrTarget base imm).toNat = (base + imm).toNat / 2 * 2 :=
  toNat_clear_low (base + imm) 1

theorem alignedPc_toNat (pc : Word) : (alignedPc pc).toNat = pc.toNat / 4 * 4 := toNat_clear_low pc 2

/-! ### Extension of loaded values -/

theorem sext32_eq_signed {n : Nat} (v : BitVec (n + 1)) : sext32 v = signed (n + 1) v.toNat := by
  have h : (2 * v.toNat < 2 ^ (n + 1)) = (v.toNat < 2 ^ n) := by rw [Nat.pow_succ']; simp
  rw [sext32_eq_sextVal, sextVal, signed, BitVec.toInt_eq_toNat_cond, Nat.add_sub_cancel]
  simp only [h]
  push_cast
  rfl

theorem zext32_eq_ofNat {n : Nat} (v : BitVec n) : zext32 v = BitVec.ofNat 32 v.toNat := (BitVec.ofNat_toNat 32 v).symm

/-- `imm_u` is the 20-bit field shifted by 12 (R314). -/
theorem immU_eq_ofNat (imm20 : BitVec 20) : immU imm20 = BitVec.ofNat 32 (imm20.toNat * 2 ^ 12) := by
  have h : (immU imm20).toNat = imm20.toNat * 2 ^ 12 := by rw [immU, toNat_append_eq_add]; simp
  rw [← h, BitVec.ofNat_toNat, BitVec.setWidth_eq]

/-! ### Little-endian numbers -/

theorem leNat_one (s : State) (a : Nat) : leNat s a 1 = (s.readByte a).toNat := by simp [leNat]

theorem leNat_two (s : State) (a : Nat) : leNat s a 2 = (s.readByte (a + 1) ++ s.readByte a).toNat := by
  rw [toNat_append_eq_add, leNat, leNat_one]; omega

theorem leNat_four (s : State) (a : Nat) : leNat s a 4 =
    (wordOfBytes (s.readByte a) (s.readByte (a + 1)) (s.readByte (a + 2)) (s.readByte (a + 3))).toNat := by
  rw [wordOfBytes, toNat_append_eq_add, toNat_append_eq_add, toNat_append_eq_add]
  simp only [leNat, Nat.add_assoc, Nat.reduceAdd]
  omega

/-- Byte `k` of a word as a number (R214). -/
theorem byteOf_toNat (w : Word) (k : Nat) : (byteOf w k).toNat = w.toNat / 2 ^ (8 * k) % 256 := by
  rw [byteOf, BitVec.extractLsb'_toNat, Nat.shiftRight_eq_div_pow]

end Sys2Proof.Machine
end

section
/-! What one instruction does, said once for all of them: it halts exactly when `instrHalt` gives a reason, and otherwise it
completes with an effect that fits its operands: the register `destOf` names, the CSR `csrOf` names, the bytes `storeOf`
names, and pc + 4 or the target of a jump or branch. -/

-- one theorem at a time: the checker's memory limit does not hold a stack for each of many theorems at once
set_option Elab.async false

namespace Sys2Proof.Machine

open Sys2Proof.Claims

/-! ### Checked accesses -/

theorem effectiveAddress_immI (s : State) (rs1 : Reg) (imm : BitVec 12) :
    s.effectiveAddress rs1 (immI imm) = plusImm (s.readReg rs1) imm := add_sext32_eq_plusImm _ _

theorem effectiveAddress_immS (s : State) (rs1 : Reg) (imm : BitVec 12) :
    s.effectiveAddress rs1 (immS imm) = plusImm (s.readReg rs1) imm := add_sext32_eq_plusImm _ _

/-- The port's check and the statements' halt reason are the same test. -/
theorem checkAccess_of_accessHalt {s : State} {ea : Word} {n : Nat} {r : HaltReason} (h : accessHalt s ea n = some r) :
    checkAccess s.capacity ea n = .error r := by
  unfold accessHalt at h
  split at h
  · cases h; exact checkAccess_misaligned ‹_›
  split at h
  · cases h; exact checkAccess_outOfRange (by omega) ‹_›
  · cases h

theorem accessHalt_eq_none {s : State} {ea : Word} {n : Nat} : accessHalt s ea n = none ↔ AccessOk s ea n := by
  simp only [accessHalt, AccessOk]
  split
  · simp; omega
  · split <;> simp <;> omega

/-- A load of the `n` bytes at `ea` that gives `v` when its access passes. -/
def State.checkedLoad (s : State) (rd : Reg) (ea : Word) (n : Nat) (v : Word) : Result :=
  s.finishLoad rd ((checkAccess s.capacity ea n).map fun _ => v)

/-- The `n` low bytes of a word, lowest first. -/
def lowBytes (v : Word) (n : Nat) : List Byte := (List.range n).map (byteOf v)

@[simp] theorem length_lowBytes (v : Word) (n : Nat) : (lowBytes v n).length = n := by simp [lowBytes]

/-- A store of the `n` low bytes of `v` at `ea`. -/
def State.checkedStore (s : State) (ea v : Word) (n : Nat) : Result :=
  s.finishStore ((checkAccess s.capacity ea n).map fun _ => s.writeBytes ea.toNat (lowBytes v n))

theorem State.checkedLoad_ok {s : State} {ea : Word} {n : Nat} (h : AccessOk s ea n) (rd : Reg) (v : Word) :
    s.checkedLoad rd ea n v = s.writeAndAdvance rd v := by
  rw [State.checkedLoad, checkAccess_ok h.1 h.2]; rfl

theorem State.checkedLoad_halt {s : State} {ea : Word} {n : Nat} {r : HaltReason} (h : accessHalt s ea n = some r)
    (rd : Reg) (v : Word) : s.checkedLoad rd ea n v = .next (s.halt r) := by
  rw [State.checkedLoad, checkAccess_of_accessHalt h]; rfl

theorem State.checkedStore_ok {s : State} {ea : Word} {n : Nat} (h : AccessOk s ea n) (v : Word) :
    s.checkedStore ea v n = .next ((s.writeBytes ea.toNat (lowBytes v n)).commit none none s.pcNext) := by
  rw [State.checkedStore, checkAccess_ok h.1 h.2]; rfl

theorem State.checkedStore_halt {s : State} {ea : Word} {n : Nat} {r : HaltReason} (h : accessHalt s ea n = some r)
    (v : Word) : s.checkedStore ea v n = .next (s.halt r) := by
  rw [State.checkedStore, checkAccess_of_accessHalt h]; rfl

/-- Extending what the port answers is loading the extended value. -/
theorem State.finishLoad_map {α : Type} (s : State) (rd : Reg) (ea : Word) (n : Nat) (v : α) (f : α → Word) :
    s.finishLoad rd (((checkAccess s.capacity ea n).map fun _ => v).map f) = s.checkedLoad rd ea n (f v) := by
  rw [State.checkedLoad]
  cases checkAccess s.capacity ea n <;> rfl

/-! ### Loads and stores as checked accesses -/

section Accesses
variable (s : State) (rd rs1 rs2 : Reg) (imm : BitVec 12)

theorem exec_lb : exec (.lb rd imm rs1) s = s.checkedLoad rd (plusImm (s.readReg rs1) imm) 1
    (signed 8 (leNat s (plusImm (s.readReg rs1) imm).toNat 1)) := by
  rw [← effectiveAddress_immI, leNat_one, ← sext32_eq_signed]
  exact s.finishLoad_map _ _ _ _ _

theorem exec_lbu : exec (.lbu rd imm rs1) s = s.checkedLoad rd (plusImm (s.readReg rs1) imm) 1
    (BitVec.ofNat 32 (leNat s (plusImm (s.readReg rs1) imm).toNat 1)) := by
  rw [← effectiveAddress_immI, leNat_one, ← zext32_eq_ofNat]
  exact s.finishLoad_map _ _ _ _ _

theorem exec_lh : exec (.lh rd imm rs1) s = s.checkedLoad rd (plusImm (s.readReg rs1) imm) 2
    (signed 16 (leNat s (plusImm (s.readReg rs1) imm).toNat 2)) := by
  rw [← effectiveAddress_immI, leNat_two, ← sext32_eq_signed]
  exact s.finishLoad_map _ _ _ _ _

theorem exec_lhu : exec (.lhu rd imm rs1) s = s.checkedLoad rd (plusImm (s.readReg rs1) imm) 2
    (BitVec.ofNat 32 (leNat s (plusImm (s.readReg rs1) imm).toNat 2)) := by
  rw [← effectiveAddress_immI, leNat_two, ← zext32_eq_ofNat]
  exact s.finishLoad_map _ _ _ _ _

theorem exec_lw : exec (.lw rd imm rs1) s = s.checkedLoad rd (plusImm (s.readReg rs1) imm) 4
    (BitVec.ofNat 32 (leNat s (plusImm (s.readReg rs1) imm).toNat 4)) := by
  rw [← effectiveAddress_immI, leNat_four, BitVec.ofNat_toNat, BitVec.setWidth_eq]
  rfl

theorem exec_sb : exec (.sb rs2 imm rs1) s = s.checkedStore (plusImm (s.readReg rs1) imm) (s.readReg rs2) 1 := by
  rw [← effectiveAddress_immS]; rfl

theorem exec_sh : exec (.sh rs2 imm rs1) s = s.checkedStore (plusImm (s.readReg rs1) imm) (s.readReg rs2) 2 := by
  rw [← effectiveAddress_immS]; rfl

theorem exec_sw : exec (.sw rs2 imm rs1) s = s.checkedStore (plusImm (s.readReg rs1) imm) (s.readReg rs2) 4 := by
  rw [← effectiveAddress_immS]; rfl

end Accesses

/-! ### What an instruction's operands say of its effect -/

/-- The CSR of a CSR instruction (R426). -/
def csrOf : Instr → Option CsrAddr
  | .csrrw _ a _ | .csrrs _ a _ | .csrrc _ a _ | .csrrwi _ a _ | .csrrsi _ a _ | .csrrci _ a _ => some a
  | _ => none

/-- The base, the offset and the size of a store (R520 to R522). -/
def storeOf : Instr → Option (Reg × BitVec 12 × Nat)
  | .sb _ imm rs1 => some (rs1, imm, 1)
  | .sh _ imm rs1 => some (rs1, imm, 2)
  | .sw _ imm rs1 => some (rs1, imm, 4)
  | _ => none

/-- The target of a jump, or of a branch that is taken (R540, R541, R587). -/
def targetOf (s : State) : Instr → Option Word
  | .jal _ offset => some (s.pc + immJ offset)
  | .jalr _ imm rs1 => some (jalrTarget (s.readReg rs1) (immI imm))
  | .beq _ _ offset | .bne _ _ offset | .blt _ _ offset => some (s.pc + immB offset)
  | .bge _ _ offset | .bltu _ _ offset | .bgeu _ _ offset => some (s.pc + immB offset)
  | _ => none

/-- The effect writes what the operands of `i` name, and nothing else. -/
structure Effect.Fits {s : State} (e : Effect s) (i : Instr) : Prop where
  wb : e.wb.map Prod.fst = destOf i
  csrw : ∀ p, e.csrw = some p → csrOf i = some p.1
  bytes : e.bytes ≠ [] → ∃ rs1 imm, storeOf i = some (rs1, imm, e.bytes.length) ∧
    e.addr = (plusImm (s.readReg rs1) imm).toNat
  nextPc : e.nextPc = s.pc + 4 ∨ targetOf s i = some e.nextPc

/-- Instruction `i` completes with an effect that fits it. -/
def Completes (i : Instr) (s : State) : Prop := ∃ e : Effect s, e.Fits i ∧ exec i s = .next e.apply

section Completion
variable {i : Instr} {s : State}

theorem completes_of_commit {wb : Option (Reg × Word)} {csrw : Option (CsrAddr × Word)} {n : Word}
    (h : exec i s = .next (s.commit wb csrw n)) (hwb : wb.map Prod.fst = destOf i)
    (hcsr : ∀ p, csrw = some p → csrOf i = some p.1) (hn : n = s.pc + 4 ∨ targetOf s i = some n) : Completes i s :=
  ⟨Effect.ofCommit s wb csrw n, ⟨hwb, hcsr, fun h => absurd rfl h, hn⟩, h⟩

theorem completes_of_writeAndAdvance {rd : Reg} {v : Word} (h : exec i s = s.writeAndAdvance rd v)
    (hd : destOf i = some rd) : Completes i s :=
  completes_of_commit h hd.symm (by simp) (.inl rfl)

theorem completes_of_linkAndJump {rd : Reg} {n : Word} (h : exec i s = s.linkAndJump rd n) (hd : destOf i = some rd)
    (ht : targetOf s i = some n) : Completes i s :=
  completes_of_commit h hd.symm (by simp) (.inr ht)

theorem completes_of_branch {taken : Bool} {offset : BitVec 13} (h : exec i s = s.branch taken offset)
    (hd : destOf i = none) (ht : targetOf s i = some (s.pc + immB offset)) : Completes i s :=
  completes_of_commit h hd.symm (by simp) (by
    cases taken
    · exact .inl rfl
    · exact .inr ht)

theorem completes_of_csrAccess {rd : Reg} {a : CsrAddr} {new : Option Word} (h : exec i s = s.csrAccess rd a new)
    (hd : destOf i = some rd) (ha : csrOf i = some a) : Completes i s :=
  completes_of_commit h hd.symm (fun p hp => by
    obtain ⟨v, -, rfl⟩ := Option.map_eq_some_iff.mp hp
    exact ha) (.inl rfl)

theorem completes_of_fence (h : exec i s = s.goTo s.pcNext) (hd : destOf i = none) : Completes i s :=
  completes_of_commit h hd.symm (by simp) (.inl rfl)

theorem completes_of_checkedStore {v : Word} {rs1 : Reg} {imm : BitVec 12} {n : Nat}
    (h : exec i s = s.checkedStore (plusImm (s.readReg rs1) imm) v n) (hst : storeOf i = some (rs1, imm, n))
    (hd : destOf i = none) (hok : AccessOk s (plusImm (s.readReg rs1) imm) n) : Completes i s :=
  ⟨⟨_, lowBytes v n, none, none, s.pcNext, .inl (by simpa using hok.2), fun _ => ⟨rfl, rfl⟩⟩,
    ⟨hd.symm, by simp, fun _ => ⟨rs1, imm, by simpa using hst, rfl⟩, .inl rfl⟩,
    h.trans (State.checkedStore_ok hok v)⟩

end Completion

/-- The two ways an instruction can end. -/
inductive Ends (i : Instr) (s : State) : Prop where
  | halts (r : HaltReason) (hr : instrHalt s i = some r) (h : exec i s = .next (s.halt r))
  | completes (hn : instrHalt s i = none) (h : Completes i s)

section Endings
variable {i : Instr} {s : State}

/-- A load ends as its access check says. -/
theorem ends_of_checkedLoad {rd : Reg} {ea v : Word} {n : Nat} (h : exec i s = s.checkedLoad rd ea n v)
    (hi : instrHalt s i = accessHalt s ea n) (hd : destOf i = some rd) : Ends i s := by
  cases ha : accessHalt s ea n with
  | some r => exact .halts r (hi.trans ha) (h.trans (State.checkedLoad_halt ha rd v))
  | none =>
    exact .completes (hi.trans ha)
      (completes_of_writeAndAdvance (h.trans (State.checkedLoad_ok (accessHalt_eq_none.mp ha) rd v)) hd)

/-- A store ends as its access check says. -/
theorem ends_of_checkedStore {v : Word} {rs1 : Reg} {imm : BitVec 12} {n : Nat}
    (h : exec i s = s.checkedStore (plusImm (s.readReg rs1) imm) v n)
    (hi : instrHalt s i = accessHalt s (plusImm (s.readReg rs1) imm) n) (hst : storeOf i = some (rs1, imm, n))
    (hd : destOf i = none) : Ends i s := by
  cases ha : accessHalt s (plusImm (s.readReg rs1) imm) n with
  | some r => exact .halts r (hi.trans ha) (h.trans (State.checkedStore_halt ha v))
  | none => exact .completes (hi.trans ha) (completes_of_checkedStore h hst hd (accessHalt_eq_none.mp ha))

end Endings

/-- Every instruction halts for the reason `instrHalt` gives, or completes with an effect that fits it. -/
theorem exec_ends (i : Instr) (s : State) : Ends i s := by
  cases i
  case ecall | ebreak => exact .halts _ rfl rfl
  case csrrw | csrrs | csrrc | csrrwi | csrrsi | csrrci => exact .completes rfl (completes_of_csrAccess rfl rfl rfl)
  case fence | fenceI => exact .completes rfl (completes_of_fence rfl rfl)
  case lb rd imm rs1 => exact ends_of_checkedLoad (exec_lb s rd rs1 imm) rfl rfl
  case lh rd imm rs1 => exact ends_of_checkedLoad (exec_lh s rd rs1 imm) rfl rfl
  case lw rd imm rs1 => exact ends_of_checkedLoad (exec_lw s rd rs1 imm) rfl rfl
  case lbu rd imm rs1 => exact ends_of_checkedLoad (exec_lbu s rd rs1 imm) rfl rfl
  case lhu rd imm rs1 => exact ends_of_checkedLoad (exec_lhu s rd rs1 imm) rfl rfl
  case sb rs2 imm rs1 => exact ends_of_checkedStore (exec_sb s rs1 rs2 imm) rfl rfl rfl
  case sh rs2 imm rs1 => exact ends_of_checkedStore (exec_sh s rs1 rs2 imm) rfl rfl rfl
  case sw rs2 imm rs1 => exact ends_of_checkedStore (exec_sw s rs1 rs2 imm) rfl rfl rfl
  case jal | jalr => exact .completes rfl (completes_of_linkAndJump rfl rfl rfl)
  case beq | bne | blt | bge | bltu | bgeu => exact .completes rfl (completes_of_branch rfl rfl rfl)
  all_goals exact .completes rfl (completes_of_writeAndAdvance rfl rfl)

theorem exec_of_instrHalt {i : Instr} {s : State} {r : HaltReason} (h : instrHalt s i = some r) :
    exec i s = .next (s.halt r) := by
  obtain ⟨r', hr, hexec⟩ | ⟨hn, -⟩ := exec_ends i s
  · obtain rfl := Option.some.inj (h.symm.trans hr)
    exact hexec
  · rw [h] at hn; cases hn

end Sys2Proof.Machine
end

section
/-! Proofs about the instructions of each family (spec/41 to spec/49): the words of a row decode to it, and the commit its
meaning ends in writes the value the rule gives and leaves everything else. -/

-- one theorem at a time: the checker's memory limit does not hold a stack for each of many theorems at once
set_option Elab.async false

namespace Sys2Proof.Machine

open Sys2Proof.Claims

/-! ### What a commit changes and what it leaves -/

theorem writesReg_commit (s : State) (rd : Reg) (v : Word) (csrw : Option (CsrAddr × Word)) (n : Word) :
    WritesReg s (s.commit (some (rd, v)) csrw n) rd v := by
  refine ⟨?_, fun r hr => by simp [State.readReg_commit_some, hr]⟩
  by_cases h : rd = 0
  · simp [h]
  · simp [State.readReg_commit_some, h]

theorem sameRest_commit (s : State) (wb : Option (Reg × Word)) (csrw : Option (CsrAddr × Word)) (n : Word) :
    SameRest s (s.commit wb csrw n) :=
  ⟨s.commit_run _ _ _, s.commit_trace _ _ _, s.commit_capacity _ _ _, s.commit_traceOut _ _ _⟩

theorem registerStep_commit (s : State) (rd : Reg) (v n : Word) :
    RegisterStep s (s.commit (some (rd, v)) none n) rd v n :=
  ⟨writesReg_commit _ _ _ _ _, s.readCsr_commit_none _ _, s.readByte_commit _ _ _, sameRest_commit _ _ _ _, rfl⟩

theorem pcStep_commit (s : State) (n : Word) : PcStep s (s.commit none none n) n :=
  ⟨fun r => s.readReg_commit_none r _ _, s.readCsr_commit_none _ _, s.readByte_commit _ _ _, sameRest_commit _ _ _ _, rfl⟩

theorem State.readCsr_commit_some (s : State) (wb : Option (Reg × Word)) (a b : CsrAddr) (v n : Word) :
    (s.commit wb (some (a, v)) n).readCsr b = (s.writeCsr a v).readCsr b :=
  State.readCsr_of_csr (s.commit_csr_some wb a v n) b

section Instructions
variable {i : Instr} {s : State}

theorem writes_of_exec {rd : Reg} {v v' : Word} (h : exec i s = s.writeAndAdvance rd v') (hv : v' = v) :
    Writes i s rd v :=
  ⟨_, h, hv ▸ registerStep_commit s rd v' _⟩

theorem goesTo_of_exec {n n' : Word} (h : exec i s = s.goTo n') (hn : n' = n) : GoesTo i s n :=
  ⟨_, h, hn ▸ pcStep_commit s n'⟩

/-! ### CSR instructions -/

/-- The common protocol: rd gets the old value; the CSR gets the new one, or keeps the old where the write is skipped. -/
theorem csrStep_of_exec {rd : Reg} {a : CsrAddr} {new : Option Word} {v : Word} (hwf : CsrFile.wf s.csr = true)
    (h : exec i s = s.csrAccess rd a new) (hv : new.getD (s.readCsr a) = v) : CsrStep i s rd a v := by
  subst hv
  refine ⟨_, h, writesReg_commit _ _ _ _ _, ?_, ?_, s.readByte_commit _ _ _, sameRest_commit _ _ _ _, rfl⟩
  · cases new with
    | none => exact s.readCsr_commit_none _ _ a
    | some w => exact (s.readCsr_commit_some _ a a w _).trans (s.readCsr_writeCsr_self a w hwf)
  · intro b hb
    cases new with
    | none => exact s.readCsr_commit_none _ _ b
    | some w => exact (s.readCsr_commit_some _ a b w _).trans (s.readCsr_writeCsr_ne a b w hb)

/-- Skipping the write of a zero source is writing old OR source (C9). -/
theorem setBits_getD (old src : Word) : (setBits old src).getD old = old ||| src := by
  unfold setBits
  split
  · rfl
  · next h => rw [not_not.mp h]; exact BitVec.or_zero.symm

/-- Skipping the write of a zero source is writing old AND NOT source (C9). -/
theorem clearBits_getD (old src : Word) : (clearBits old src).getD old = old &&& ~~~src := by
  unfold clearBits
  split
  · rfl
  · next h => rw [not_not.mp h]; exact BitVec.and_allOnes.symm

/-! ### Branches -/

/-- A branch goes to its target when taken and on to pc + 4 when not. -/
theorem goesTo_of_branch {taken : Bool} {offset : BitVec 13} {p : Prop} [Decidable p]
    (h : exec i s = s.branch taken offset) (ht : taken = decide p) :
    GoesTo i s (if p then plusImm s.pc offset else s.pc + 4) := by
  refine goesTo_of_exec h ?_
  rw [ht, immB, add_sext32_eq_plusImm]
  by_cases hp : p <;> simp [hp, State.pcNext]

/-- A branch taken when `p` does not hold. -/
theorem goesTo_of_branch_not {taken : Bool} {offset : BitVec 13} {p : Prop} [Decidable p]
    (h : exec i s = s.branch taken offset) (ht : taken = !decide p) :
    GoesTo i s (if p then s.pc + 4 else plusImm s.pc offset) := by
  rw [← ite_not]
  exact goesTo_of_branch h (by rw [ht, decide_not])

/-! ### Loads and stores -/

theorem writes_of_checkedLoad {rd : Reg} {ea v : Word} {n : Nat} (h : exec i s = s.checkedLoad rd ea n v)
    (hok : AccessOk s ea n) : Writes i s rd v :=
  writes_of_exec (h.trans (State.checkedLoad_ok hok rd v)) rfl

/-- The bytes of a store lie where it puts them and nowhere else. -/
theorem storeStep_of_checkedStore {ea v : Word} {n : Nat} (h : exec i s = s.checkedStore ea v n)
    (hok : AccessOk s ea n) (hwf : Memory.wf s.capacity s.mem = true) : StoreStep i s ea v n := by
  refine ⟨_, h.trans (State.checkedStore_ok hok v), fun k hk => ?_, fun a ha => ?_, fun r => ?_, fun a => ?_, ?_, rfl⟩
  · rw [State.readByte_commit, s.readByte_writeBytes_in _ k _ hwf (by simpa using hok.2) (by simpa using hk)]
    simp [lowBytes, byteOf_toNat]
  · rw [State.readByte_commit, s.readByte_writeBytes_out _ _ _ (by simpa using ha)]
  · rw [State.readReg_commit_none, State.readReg_of_x (s.writeBytes_x _ _)]
  · rw [State.readCsr_commit_none, State.readCsr_of_csr (s.writeBytes_csr _ _)]
  · simp [SameRest]

/-- The two checks stop an access, alignment first. -/
theorem accessHalts_of_instrHalt {ea : Word} {n : Nat} (h : instrHalt s i = accessHalt s ea n) : AccessHalts i s ea n :=
  ⟨fun hmis => exec_of_instrHalt (h.trans (if_pos hmis)),
    fun hal hlt => exec_of_instrHalt (h.trans ((if_neg (not_not.mpr hal)).trans (if_pos hlt)))⟩

/-- A one-byte access is always aligned. -/
theorem accessOk_one {ea : Word} (h : ea.toNat + 1 ≤ s.capacity) : AccessOk s ea 1 := ⟨Nat.mod_one _, h⟩

theorem haltsWith_outOfRange_one {ea : Word} (h : instrHalt s i = accessHalt s ea 1) (hlt : s.capacity < ea.toNat + 1) :
    HaltsWith i s (.outOfRange ea 1 s.capacity) :=
  (accessHalts_of_instrHalt h).2 (Nat.mod_one _) hlt

end Instructions

/-! ### The obligations, family by family -/

/-- Settles O6: the new value of the common protocol is the source. -/
theorem csrWriteInstructions : Obligations.CsrWriteInstructions :=
  ⟨row_I rfl rfl, row_I rfl rfl, fun _ _ _ hwf =>
    ⟨fun _ => csrStep_of_exec hwf rfl rfl, fun zimm => csrStep_of_exec hwf rfl (zext32_eq_ofNat zimm)⟩⟩

/-- Settles O7: setting the bits of a zero source is no write. -/
theorem csrSetInstructions : Obligations.CsrSetInstructions :=
  ⟨row_I rfl rfl, row_I rfl rfl, fun _ _ _ hwf =>
    ⟨fun _ => csrStep_of_exec hwf rfl (setBits_getD _ _),
      fun zimm => csrStep_of_exec hwf rfl (zext32_eq_ofNat zimm ▸ setBits_getD _ _)⟩⟩

/-- Settles O8: clearing the bits of a zero source is no write. -/
theorem csrClearInstructions : Obligations.CsrClearInstructions :=
  ⟨row_I rfl rfl, row_I rfl rfl, fun _ _ _ hwf =>
    ⟨fun _ => csrStep_of_exec hwf rfl (clearBits_getD _ _),
      fun zimm => csrStep_of_exec hwf rfl (zext32_eq_ofNat zimm ▸ clearBits_getD _ _)⟩⟩

/-- Settles O9: a word of opcode 0x0F is the encoding of a FENCE unless its funct3 is 1. -/
theorem fencesOnlyAdvance : Obligations.FencesOnlyAdvance := by
  refine ⟨row_I rfl rfl, fun w hw hf3 => ?_, fun s _ _ _ _ =>
    ⟨goesTo_of_exec rfl rfl, goesTo_of_exec rfl rfl⟩⟩
  have hop : InstWord.opcode w = 0x0F#7 := field_of_mask hw (by decide)
  have h3 : InstWord.funct3 w ≠ 1#3 := fun h => hf3 (by rw [bits_funct3, h]; rfl)
  rw [decode_of_opcode w (by rw [hop]; decide)]
  simp [decodeByOpcode, hop, decodeFence, h3]

/-- Settles O10: the sums and the difference of words are those of numbers modulo 2^32. -/
theorem addAndSubtract : Obligations.AddAndSubtract :=
  ⟨row_I rfl rfl, row_R rfl rfl, row_R rfl rfl, fun _ _ _ =>
    ⟨fun _ => writes_of_exec rfl (add_sext32_eq_plusImm _ _), fun _ => writes_of_exec rfl (add_eq_ofNat _ _),
      fun _ => writes_of_exec rfl (sub_eq_ofInt _ _)⟩⟩

/-- Settles O11: a bitwise operation on words is the one on their numbers. -/
theorem bitwiseLogic : Obligations.BitwiseLogic :=
  ⟨row_I rfl rfl, row_I rfl rfl, row_I rfl rfl, row_R rfl rfl, row_R rfl rfl, row_R rfl rfl, fun _ _ _ =>
      ⟨fun _ => ⟨writes_of_exec rfl (xor_eq_ofNat _ _), writes_of_exec rfl (or_eq_ofNat _ _),
        writes_of_exec rfl (and_eq_ofNat _ _)⟩,
      fun _ => ⟨writes_of_exec rfl (xor_eq_ofNat _ _), writes_of_exec rfl (or_eq_ofNat _ _),
        writes_of_exec rfl (and_eq_ofNat _ _)⟩⟩⟩

/-- Settles O12: a shift multiplies or divides by a power of 2. -/
theorem shiftsByAConstant : Obligations.ShiftsByAConstant :=
  ⟨row_R rfl rfl, row_R rfl rfl, row_R rfl rfl, fun _ _ _ n =>
    ⟨writes_of_exec rfl (shiftLeft_eq_ofNat _ n), writes_of_exec rfl (shiftRightLogical_eq_ofNat _ n),
      writes_of_exec rfl (shiftRightArith_eq_ofInt _ n)⟩⟩

/-- Settles O13: the amount is x[rs2] modulo 32. -/
theorem shiftsByARegister : Obligations.ShiftsByARegister := by
  refine ⟨row_R rfl rfl, row_R rfl rfl, row_R rfl rfl, fun s rd rs1 rs2 => ?_⟩
  rw [← regShamt_toNat]
  exact ⟨writes_of_exec rfl (shiftLeft_eq_ofNat _ _), writes_of_exec rfl (shiftRightLogical_eq_ofNat _ _),
    writes_of_exec rfl (shiftRightArith_eq_ofInt _ _)⟩

/-- Settles O14: a sign-extended immediate reads, signed, as the immediate does. -/
theorem setIfLessThan : Obligations.SetIfLessThan :=
  ⟨row_I rfl rfl, row_I rfl rfl, row_R rfl rfl, row_R rfl rfl, fun s _ rs1 =>
      ⟨fun imm => ⟨writes_of_exec rfl (toInt_sext32 imm (by decide) ▸ boolWord_ltSigned (s.readReg rs1) (immI imm)),
        writes_of_exec rfl (boolWord_ltUnsigned _ _)⟩,
      fun _ => ⟨writes_of_exec rfl (boolWord_ltSigned _ _), writes_of_exec rfl (boolWord_ltUnsigned _ _)⟩⟩⟩

/-- Settles O15: both address forms sign-extend the immediate and add modulo 2^32. -/
theorem effectiveAddressOfLoadsAndStores : Obligations.EffectiveAddressOfLoadsAndStores := by
  intro s rs1 imm
  exact ⟨toNat_add_sext32 _ _, toNat_add_sext32 _ _⟩

/-- Settles O16: a byte access is always aligned, so only its bounds can stop it. -/
theorem byteLoads : Obligations.ByteLoads := by
  refine ⟨row_I rfl rfl, row_I rfl rfl, fun s rd rs1 imm => ?_⟩
  rw [effectiveAddress_immI]
  exact ⟨rfl, fun hin => ⟨writes_of_checkedLoad (exec_lb s rd rs1 imm) (accessOk_one hin),
      writes_of_checkedLoad (exec_lbu s rd rs1 imm) (accessOk_one hin)⟩,
    fun hlt => ⟨haltsWith_outOfRange_one rfl hlt, haltsWith_outOfRange_one rfl hlt⟩⟩

/-- Settles O17: a halfword access that passes its checks gives its two bytes, extended. -/
theorem halfwordLoads : Obligations.HalfwordLoads := by
  refine ⟨row_I rfl rfl, row_I rfl rfl, fun s rd rs1 imm => ?_⟩
  rw [effectiveAddress_immI]
  exact ⟨rfl, fun hok => ⟨writes_of_checkedLoad (exec_lh s rd rs1 imm) hok,
      writes_of_checkedLoad (exec_lhu s rd rs1 imm) hok⟩,
    accessHalts_of_instrHalt rfl, accessHalts_of_instrHalt rfl⟩

/-- Settles O18: a word access that passes its checks gives its four bytes. -/
theorem wordLoad : Obligations.WordLoad := by
  refine ⟨row_I rfl rfl, fun s rd rs1 imm => ?_⟩
  rw [effectiveAddress_immI]
  exact ⟨rfl, writes_of_checkedLoad (exec_lw s rd rs1 imm), accessHalts_of_instrHalt rfl⟩

/-- Settles O19: a byte access is always aligned, so only its bounds can stop it. -/
theorem byteStore : Obligations.ByteStore := by
  refine ⟨row_S rfl rfl, fun s rs2 rs1 imm hwf => ?_⟩
  rw [effectiveAddress_immS]
  exact ⟨rfl, fun hin => storeStep_of_checkedStore (exec_sb s rs1 rs2 imm) (accessOk_one hin) hwf,
    haltsWith_outOfRange_one rfl⟩

/-- Settles O20: a halfword store that passes its checks writes the two low bytes. -/
theorem halfwordStore : Obligations.HalfwordStore := by
  refine ⟨row_S rfl rfl, fun s rs2 rs1 imm hwf => ?_⟩
  rw [effectiveAddress_immS]
  exact ⟨rfl, fun hok => storeStep_of_checkedStore (exec_sh s rs1 rs2 imm) hok hwf, accessHalts_of_instrHalt rfl⟩

/-- Settles O21: a word store that passes its checks writes the four bytes. -/
theorem wordStore : Obligations.WordStore := by
  refine ⟨row_S rfl rfl, fun s rs2 rs1 imm hwf => ?_⟩
  rw [effectiveAddress_immS]
  exact ⟨rfl, fun hok => storeStep_of_checkedStore (exec_sw s rs1 rs2 imm) hok hwf, accessHalts_of_instrHalt rfl⟩

/-- Settles O23: SW leaves the pc at pc + 4, where the stored word reads back. -/
theorem storedInstructionIsFetched : Obligations.StoredInstructionIsFetched := by
  intro s rs2 rs1 imm hwf hok hea
  obtain ⟨hal, hin⟩ := hok
  refine ⟨_, exec_sw_ok hal hin, ?_⟩
  rw [State.fetch, State.memRead32_commit, State.commit_pc, State.pcNext, ← hea]
  exact State.memRead32_writeBytes_bytesOfWord _ hwf hal hin

/-- Settles O24: JAL ends in a commit of the link, with no check. -/
theorem jumpAndLink : Obligations.JumpAndLink :=
  ⟨row_J rfl rfl, fun s rd offset =>
    ⟨_, rfl, add_sext32_eq_plusImm s.pc offset ▸ registerStep_commit s rd _ _⟩⟩

/-- Settles O25: clearing bit 0 gives the even number at or just below the sum. -/
theorem jumpAndLinkRegister : Obligations.JumpAndLinkRegister := by
  refine ⟨row_I rfl rfl, fun s rd rs1 imm => ⟨_, rfl, ?_⟩⟩
  rw [← add_sext32_eq_plusImm, Nat.mul_comm, ← immI, ← jalrTarget_toNat, BitVec.ofNat_toNat, BitVec.setWidth_eq]
  exact registerStep_commit s rd _ _

/-- Settles O26: the 20-bit field above 12 zero bits is the field times 2^12. -/
theorem upperImmediates : Obligations.UpperImmediates :=
  ⟨row_U rfl rfl, row_U rfl rfl, fun s _ imm20 =>
    ⟨writes_of_exec rfl (immU_eq_ofNat imm20), writes_of_exec rfl (by
      rw [immU_eq_ofNat, BitVec.ofNat_add, BitVec.ofNat_toNat, BitVec.setWidth_eq])⟩⟩

/-- Settles O27: both branches compare for equality, BNE the other way round. -/
theorem branchesOnEquality : Obligations.BranchesOnEquality :=
  ⟨row_B rfl rfl, row_B rfl rfl, fun _ _ _ _ =>
    ⟨goesTo_of_branch rfl rfl, goesTo_of_branch_not rfl rfl⟩⟩

/-- Settles O28: both branches compare the signed readings, BGE the other way round. -/
theorem branchesOnSignedOrder : Obligations.BranchesOnSignedOrder :=
  ⟨row_B rfl rfl, row_B rfl rfl, fun _ _ _ _ =>
    ⟨goesTo_of_branch rfl (ltSigned_eq _ _), goesTo_of_branch_not rfl (congrArg _ (ltSigned_eq _ _))⟩⟩

/-- Settles O29: both branches compare the unsigned readings, BGEU the other way round. -/
theorem branchesOnUnsignedOrder : Obligations.BranchesOnUnsignedOrder :=
  ⟨row_B rfl rfl, row_B rfl rfl, fun _ _ _ _ =>
    ⟨goesTo_of_branch rfl (ltUnsigned_eq _ _), goesTo_of_branch_not rfl (congrArg _ (ltUnsigned_eq _ _))⟩⟩

end Sys2Proof.Machine
end

section
/-! What a step does, said once (spec/10_state.md R160, spec/60_exceptions.md R720): it halts for the first check that fails,
or the fetched instruction completes with an effect that fits it. The statements about every step follow. -/

-- one theorem at a time: the checker's memory limit does not hold a stack for each of many theorems at once
set_option Elab.async false

namespace Sys2Proof.Machine

open Sys2Proof.Claims Sys2Proof.Laws

/-! ### The trace hook leaves the machine's state -/

section Hook
variable (s : State) (word : Word) (i : Instr) (t : State)

@[simp] theorem traceInstr_pc : (traceInstr s word i t).pc = t.pc := by
  unfold traceInstr; split <;> simp
@[simp] theorem traceInstr_csr : (traceInstr s word i t).csr = t.csr := by
  unfold traceInstr; split <;> simp
@[simp] theorem traceInstr_trace : (traceInstr s word i t).trace = t.trace := by
  unfold traceInstr; split <;> simp
@[simp] theorem traceInstr_capacity : (traceInstr s word i t).capacity = t.capacity := by
  unfold traceInstr; split <;> simp
@[simp] theorem traceInstr_mem : (traceInstr s word i t).mem = t.mem := by
  unfold traceInstr; split <;> simp

@[simp] theorem traceInstr_readReg (r : Reg) : (traceInstr s word i t).readReg r = t.readReg r :=
  State.readReg_of_x (traceInstr_x s word i t) r
@[simp] theorem traceInstr_readCsr (a : CsrAddr) : (traceInstr s word i t).readCsr a = t.readCsr a :=
  State.readCsr_of_csr (traceInstr_csr s word i t) a
@[simp] theorem traceInstr_readByte (a : Nat) : (traceInstr s word i t).readByte a = t.readByte a :=
  State.readByte_of_mem (traceInstr_mem s word i t) a

end Hook

/-- Emitting adds the record or nothing. -/
theorem State.emit_traceOut (s : State) (r : TraceRecord) :
    (s.emit r).traceOut = s.traceOut ++ (if s.trace then [r] else []) := by
  cases h : s.trace with
  | true => exact State.emit_traceOut_on h r
  | false => simp [State.emit_off h]

/-! ### The fetch -/

/-- The word at the pc is what an aligned fetch within the capacity reads (R221). -/
theorem fetch_of_accessOk {s : State} (h : AccessOk s s.pc 4) : s.fetch = .ok (wordAtPc s) := by
  rw [State.fetch, State.memRead32_ok h.1 h.2, wordAtPc, leNat_four, BitVec.ofNat_toNat, BitVec.setWidth_eq]

theorem fetch_of_accessHalt {s : State} {r : HaltReason} (h : accessHalt s s.pc 4 = some r) : s.fetch = .error r := by
  rw [State.fetch, State.memRead32, checkAccess_of_accessHalt h]; rfl

/-! ### How a step ends -/

/-- The four ends of a step of a Running core, in the order of R720. -/
inductive StepEnds (s : State) : State → Prop where
  | fetchHalts (r : HaltReason) (hr : accessHalt s s.pc 4 = some r) : StepEnds s (s.halt r)
  | illegal (hok : AccessOk s s.pc 4) (e : DecodeError) (hd : decode (wordAtPc s) = .error e) :
    StepEnds s ((s.emit (illegalRecord s.pc (wordAtPc s))).halt (.illegalInstruction s.pc (wordAtPc s)))
  | instrHalts (hok : AccessOk s s.pc 4) (i : Instr) (hd : decode (wordAtPc s) = .ok i) (r : HaltReason)
    (hr : instrHalt s i = some r) : StepEnds s (traceInstr s (wordAtPc s) i (s.halt r))
  | completes (hok : AccessOk s s.pc 4) (i : Instr) (hd : decode (wordAtPc s) = .ok i) (hn : instrHalt s i = none)
    (e : Effect s) (hfit : e.Fits i) : StepEnds s (traceInstr s (wordAtPc s) i e.apply)

theorem step_of_fetch_error {s : State} {r : HaltReason} (hrun : s.run = .running) (h : s.fetch = .error r) :
    step s = .next (s.halt r) := by
  simp [step, hrun, h, State.fetchFailed, State.raiseHalt]

theorem step_of_decode_error {s : State} {word : Word} {e : DecodeError} (hrun : s.run = .running)
    (hfetch : s.fetch = .ok word) (hd : decode word = .error e) :
    step s = .next ((s.emit (illegalRecord s.pc word)).halt (.illegalInstruction s.pc word)) := by
  simp [step, hrun, hfetch, hd, State.illegalWord, State.raiseHalt]

/-- A Running core always has a next state, and it is one of the four ends. -/
theorem step_total {s : State} (hrun : s.run = .running) : ∃ t, step s = .next t ∧ StepEnds s t := by
  cases ha : accessHalt s s.pc 4 with
  | some r => exact ⟨_, step_of_fetch_error hrun (fetch_of_accessHalt ha), .fetchHalts r ha⟩
  | none =>
    have hok := accessHalt_eq_none.mp ha
    have hfetch := fetch_of_accessOk hok
    cases hd : decode (wordAtPc s) with
    | error e => exact ⟨_, step_of_decode_error hrun hfetch hd, .illegal hok e hd⟩
    | ok i =>
      obtain ⟨r, hr, hexec⟩ | ⟨hn, e, hfit, hexec⟩ := exec_ends i s
      · exact ⟨_, step_of_exec hrun hfetch hd hexec, .instrHalts hok i hd r hr⟩
      · exact ⟨_, step_of_exec hrun hfetch hd hexec, .completes hok i hd hn e hfit⟩

theorem step_ends {s t : State} (h : step s = .next t) : StepEnds s t := by
  obtain ⟨t', ht', hends⟩ := step_total (running_of_step_next h)
  obtain rfl := Host.Outcome.next.inj (h.symm.trans ht')
  exact hends

/-- The fields of the machine that a halt leaves. -/
structure Unmoved (s t : State) : Prop where
  x : t.x = s.x
  csr : t.csr = s.csr
  mem : t.mem = s.mem
  pc : t.pc = s.pc
  trace : t.trace = s.trace
  capacity : t.capacity = s.capacity

theorem unmoved_of_halting (s : State) (word : Word) (i : Instr) (r : HaltReason) :
    Unmoved s (traceInstr s word i (s.halt r)) := by
  constructor <;> simp

theorem unmoved_of_illegal (s : State) (rec : TraceRecord) (r : HaltReason) : Unmoved s ((s.emit rec).halt r) := by
  constructor <;> simp

@[simp] theorem Effect.apply_run {s : State} (e : Effect s) : e.apply.run = s.run := by
  simp [Effect.apply]

/-- A step halts and leaves the machine's state, or the fetched instruction completes. -/
theorem step_halts_or_completes {s t : State} (h : step s = .next t) :
    (t.run ≠ .running ∧ Unmoved s t) ∨
    (∃ i, ∃ e : Effect s, t.run = .running ∧ s.fetch = .ok (wordAtPc s) ∧ decode (wordAtPc s) = .ok i ∧ e.Fits i ∧
      t = traceInstr s (wordAtPc s) i e.apply) := by
  cases step_ends h with
  | fetchHalts r _ => exact .inl ⟨by simp, rfl, rfl, rfl, rfl, rfl, rfl⟩
  | illegal => exact .inl ⟨by simp, unmoved_of_illegal _ _ _⟩
  | instrHalts _ i _ r _ => exact .inl ⟨by simp, unmoved_of_halting _ _ _ _⟩
  | completes hok i hd _ e hfit =>
    exact .inr ⟨i, e, by simpa using running_of_step_next h, fetch_of_accessOk hok, hd, hfit, rfl⟩

/-! ### The priority of the checks -/

theorem expectedHalt_of_accessHalt {s : State} {r : HaltReason} (h : accessHalt s s.pc 4 = some r) :
    expectedHalt s = some r := by
  unfold accessHalt at h
  unfold expectedHalt
  split at h
  · rwa [if_pos ‹_›]
  split at h
  · rwa [if_neg ‹_›, if_pos ‹_›]
  · cases h

theorem expectedHalt_of_decode_error {s : State} {e : DecodeError} (hok : AccessOk s s.pc 4)
    (hd : decode (wordAtPc s) = .error e) : expectedHalt s = some (.illegalInstruction s.pc (wordAtPc s)) := by
  simp [expectedHalt, hok.1, Nat.not_lt.mpr hok.2, hd]

theorem expectedHalt_of_decode_ok {s : State} {i : Instr} (hok : AccessOk s s.pc 4)
    (hd : decode (wordAtPc s) = .ok i) : expectedHalt s = instrHalt s i := by
  simp [expectedHalt, hok.1, Nat.not_lt.mpr hok.2, hd]

/-- Settles O33: each end of a step leaves the run state of the first check that fails. -/
theorem stepOutcomeFollowsThePriority : Obligations.StepOutcomeFollowsThePriority := by
  intro s hrun
  obtain ⟨t, hstep, hends⟩ := step_total hrun
  refine ⟨t, hstep, ?_⟩
  cases hends with
  | fetchHalts r hr => rw [expectedHalt_of_accessHalt hr]; rfl
  | illegal hok e hd => rw [expectedHalt_of_decode_error hok hd]; rfl
  | instrHalts hok i hd r hr => rw [expectedHalt_of_decode_ok hok hd, hr]; simp
  | completes hok i hd hn e hfit => rw [expectedHalt_of_decode_ok hok hd, hn]; simpa using hrun

/-! ### One step at a time -/

/-- Settles O30: the word at the pc is fetched, and every instruction answers a next state. -/
theorem stepRunsTheDecodedInstruction : Obligations.StepRunsTheDecodedInstruction := by
  intro s i hrun hok hd
  have hnext : ∃ t, exec i s = .next t := by
    obtain ⟨r, -, hexec⟩ | ⟨-, e, -, hexec⟩ := exec_ends i s
    · exact ⟨_, hexec⟩
    · exact ⟨_, hexec⟩
  obtain ⟨t, hexec⟩ := hnext
  have hstep := step_of_exec hrun (fetch_of_accessOk hok) hd hexec
  exact ⟨(decode_encodes hd).1, t, hexec, hstep, fun htr => by
    rw [hstep, traceInstr_off ((exec_keeps_tracing hexec).1.trans htr)]⟩

/-- Settles O31: the fetch checks alignment, then bounds. -/
theorem fetchErrorsHalt : Obligations.FetchErrorsHalt := fun _ hrun =>
  ⟨fun hmis => step_of_fetch_error hrun (fetch_of_accessHalt (if_pos hmis)), fun hal hlt =>
    step_of_fetch_error hrun (fetch_of_accessHalt ((if_neg (not_not.mpr hal)).trans (if_pos hlt)))⟩

/-- Settles O32: the step of an illegal word emits its record and halts. -/
theorem illegalWordHaltsTheStep : Obligations.IllegalWordHaltsTheStep := by
  intro s hrun hok ⟨e, hd⟩
  have hsame := unmoved_of_illegal s (illegalRecord s.pc (wordAtPc s)) (.illegalInstruction s.pc (wordAtPc s))
  exact ⟨_, step_of_decode_error hrun (fetch_of_accessOk hok) hd, rfl, State.readReg_of_x hsame.x,
    State.readCsr_of_csr hsame.csr, State.readByte_of_mem hsame.mem, hsame.pc, hsame.trace, hsame.capacity,
    s.emit_traceOut _⟩

/-- Settles O36: a step that does not complete moves no field of the machine. -/
theorem haltCommitsNothing : Obligations.HaltCommitsNothing := by
  intro s t h ht
  obtain ⟨-, hsame⟩ | ⟨i, e, hrun, -⟩ := step_halts_or_completes h
  · exact ⟨State.readReg_of_x hsame.x, State.readCsr_of_csr hsame.csr, State.readByte_of_mem hsame.mem, hsame.pc,
      hsame.trace, hsame.capacity⟩
  · exact absurd hrun ht

/-- The hook adds at most one record to the output. -/
theorem traceInstr_traceOut (s : State) (word : Word) (i : Instr) (t : State) :
    ∃ rs, rs.length ≤ 1 ∧ (traceInstr s word i t).traceOut = t.traceOut ++ rs := by
  unfold traceInstr
  split
  · exact ⟨_, by split <;> simp, State.emit_traceOut _ _⟩
  · exact ⟨[], by simp, by simp⟩

@[simp] theorem Effect.apply_capacity {s : State} (e : Effect s) : e.apply.capacity = s.capacity := by
  simp [Effect.apply]

/-- Settles O42: each end of a step keeps both, and only the trace hook adds output. -/
theorem capacityAndTraceFlagAreFixed : Obligations.CapacityAndTraceFlagAreFixed := by
  intro s t h
  cases step_ends h with
  | fetchHalts r _ => exact ⟨rfl, rfl, [], by simp, by simp⟩
  | illegal => exact ⟨by simp, by simp, _, by split <;> simp, s.emit_traceOut _⟩
  | instrHalts _ i _ r _ => exact ⟨by simp, by simp, traceInstr_traceOut _ _ _ _⟩
  | completes _ i _ _ e _ => exact ⟨by simp, by simp, e.apply_traceOut ▸ traceInstr_traceOut _ _ _ _⟩

/-- A run state that no record is due for adds none. -/
theorem traceInstr_not_due {s t : State} {word : Word} {i : Instr} (h : emitsRecord t.run = false) :
    traceInstr s word i t = t := by
  simp [traceInstr, h]

/-- Settles O55: no record is due for a memory error, and an illegal word halts for another reason. -/
theorem memoryErrorsEmitNoRecord : Obligations.MemoryErrorsEmitNoRecord := by
  intro s t h herr
  have hdue : emitsRecord t.run = false := by
    obtain ⟨a, n, hr⟩ | ⟨a, n, c, hr⟩ := herr <;> rw [hr] <;> rfl
  cases step_ends h with
  | fetchHalts => rfl
  | illegal => simp at herr
  | instrHalts _ i _ r _ =>
    rw [traceInstr_run] at hdue
    rw [traceInstr_not_due hdue, State.halt_traceOut]
  | completes _ i _ _ e _ =>
    rw [traceInstr_run] at hdue
    rw [traceInstr_not_due hdue, e.apply_traceOut]

end Sys2Proof.Machine
end

section
/-! The invariant and the frames of a step (spec/10_state.md, spec/20_memory.md): what an effect changes is what the
instruction's operands name, and the operands are in the fields of its word. -/

-- one theorem at a time: the checker's memory limit does not hold a stack for each of many theorems at once
set_option Elab.async false

namespace Sys2Proof.Machine

open Sys2Proof.Claims Sys2Proof.Laws

/-! ### The invariant -/

theorem State.Inv.of_unmoved {s t : State} (h : s.Inv) (hsame : Unmoved s t) : t.Inv := by
  simpa [State.Inv, hsame.x, hsame.capacity, hsame.mem, hsame.csr] using h

theorem Effect.apply_mem {s : State} (e : Effect s) : e.apply.mem = (s.writeBytes e.addr e.bytes).mem :=
  State.commit_mem _ _ _ _

/-- Bytes are written within the capacity, so memory stays canonical. -/
theorem Effect.apply_mem_wf {s : State} (e : Effect s) (h : Memory.wf s.capacity s.mem = true) :
    Memory.wf s.capacity e.apply.mem = true := by
  rw [e.apply_mem]
  obtain hin | hnil := e.inRange
  · exact s.writeBytes_wf _ _ h hin
  · rwa [hnil]

/-- A CSR write has a 12-bit address, so the CSR file stays canonical. -/
theorem Effect.apply_csr_wf {s : State} (e : Effect s) (h : CsrFile.wf s.csr = true) :
    CsrFile.wf e.apply.csr = true := by
  have h' : CsrFile.wf (s.writeBytes e.addr e.bytes).csr = true := by rwa [State.writeBytes_csr]
  unfold Effect.apply
  cases e.csrw with
  | none => rwa [State.commit_csr_none]
  | some p => rw [State.commit_csr_some]; exact State.writeCsr_wf _ p.1 p.2 h'

theorem Effect.apply_inv {s : State} (e : Effect s) (h : s.Inv) : e.apply.Inv := by
  obtain ⟨-, hcap, hmem, hcsr⟩ := h
  refine ⟨e.apply_cell, ?_, ?_, e.apply_csr_wf hcsr⟩ <;> rw [e.apply_capacity]
  · exact hcap
  · exact e.apply_mem_wf hmem

/-- Settles O37: a halt moves no field the invariant speaks of, and an effect keeps it. -/
theorem stepKeepsInv : Obligations.StepKeepsInv := by
  intro s t h hstep
  obtain ⟨-, hsame⟩ | ⟨i, e, -, -, -, -, rfl⟩ := step_halts_or_completes hstep
  · exact h.of_unmoved hsame
  · simpa [State.Inv] using e.apply_inv h

/-! ### Even addresses -/

/-- A number whose bit 0 is clear is even, read as a signed one too. -/
theorem toInt_even {n : Nat} {v : BitVec (n + 1)} (h : v[0] = false) : v.toInt % 2 = 0 := by
  have heven : v.toNat % 2 = 0 := by
    rw [BitVec.getElem_eq_testBit_toNat, Nat.testBit_zero] at h
    simpa using h
  rw [BitVec.toInt_eq_toNat_cond, Nat.pow_succ]
  push_cast
  split <;> omega

/-- An even address plus a sign-extended even offset is even, also where the sum wraps (decision D6). -/
theorem even_add_sext32 {n : Nat} {pc : Word} {offset : BitVec (n + 1)} (hpc : pc.toNat % 2 = 0)
    (h : offset[0] = false) : (pc + sext32 offset).toNat % 2 = 0 := by
  have hsum := toNat_add_sext32 pc offset
  have heven := toInt_even h
  omega

theorem even_pc_add_four {pc : Word} (h : pc.toNat % 2 = 0) : (pc + 4).toNat % 2 = 0 := by
  rw [BitVec.toNat_add]
  simp
  omega

/-- Every target is even: the offsets of a well-formed jump or branch are, and JALR clears bit 0. -/
theorem targetOf_even {s : State} {i : Instr} {n : Word} (hpc : s.pc.toNat % 2 = 0) (hwf : i.wf = true)
    (h : targetOf s i = some n) : n.toNat % 2 = 0 := by
  cases i <;> cases h
  case jalr => rw [jalrTarget_toNat]; omega
  all_goals exact even_add_sext32 hpc (by simpa [Instr.wf, jumpOffsetOk, branchOffsetOk] using hwf)

@[simp] theorem Effect.apply_pc {s : State} (e : Effect s) : e.apply.pc = e.nextPc := rfl

/-- Settles O41: a halt leaves the pc, and a completed step goes to pc + 4 or to an even target. -/
theorem evenPcStaysEven : Obligations.EvenPcStaysEven := by
  intro s t hpc h
  obtain ⟨-, hsame⟩ | ⟨i, e, -, -, hd, hfit, rfl⟩ := step_halts_or_completes h
  · rwa [hsame.pc]
  · rw [traceInstr_pc, Effect.apply_pc]
    obtain hnext | htarget := hfit.nextPc
    · rw [hnext]; exact even_pc_add_four hpc
    · exact targetOf_even hpc (decode_encodes hd).1 htarget

/-! ### What an effect changes -/

section Effects
variable {s : State} (e : Effect s)

/-- A register reads as before, or its write was staged and it reads the value written. -/
theorem Effect.apply_readReg (r : Reg) :
    e.apply.readReg r = s.readReg r ∨ (r ≠ 0 ∧ e.wb.map Prod.fst = some r) := by
  have hbytes := State.readReg_of_x (s.writeBytes_x e.addr e.bytes) r
  unfold Effect.apply
  cases e.wb with
  | none => exact .inl ((State.readReg_commit_none _ _ _ _).trans hbytes)
  | some p =>
    rw [State.readReg_commit_some]
    split
    · next h => obtain ⟨rfl, h0⟩ := h; exact .inr ⟨h0, rfl⟩
    · exact .inl hbytes

/-- A CSR reads as before, or its write was staged. -/
theorem Effect.apply_readCsr (a : CsrAddr) : e.apply.readCsr a = s.readCsr a ∨ ∃ v, e.csrw = some (a, v) := by
  have hbytes := State.readCsr_of_csr (s.writeBytes_csr e.addr e.bytes) a
  unfold Effect.apply
  cases e.csrw with
  | none => exact .inl ((State.readCsr_commit_none _ _ _ _).trans hbytes)
  | some p =>
    by_cases ha : a = p.1
    · exact .inr ⟨p.2, by rw [ha]⟩
    · exact .inl (((State.readCsr_commit_some _ _ _ _ _ _).trans (State.readCsr_writeCsr_ne _ _ _ _ ha)).trans hbytes)

/-- A byte reads as before, or lies in the bytes written, which are within the capacity. -/
theorem Effect.apply_readByte (a : Nat) : e.apply.readByte a = s.readByte a ∨
    (e.bytes ≠ [] ∧ e.addr ≤ a ∧ a < e.addr + e.bytes.length ∧ e.addr + e.bytes.length ≤ s.capacity) := by
  rw [Effect.apply, State.readByte_commit]
  by_cases hout : a < e.addr ∨ e.addr + e.bytes.length ≤ a
  · exact .inl (s.readByte_writeBytes_out _ _ _ hout)
  · have hne : e.bytes ≠ [] := fun hnil => hout (by rw [hnil]; simp; omega)
    have hin := e.inRange.resolve_right hne
    exact .inr ⟨hne, by omega, by omega, hin⟩

end Effects

/-! ### What a word's fields say of its instruction -/

open EncodedOpcode in
/-- The word of an instruction has the opcode of its group (R327). -/
theorem opcode_encode : ∀ i : Instr, InstWord.opcode (encode i) = groupOpcode i
  | .ecall => ecall | .ebreak => ebreak
  | .csrrw _ _ _ => csrrw _ _ _ | .csrrs _ _ _ => csrrs _ _ _ | .csrrc _ _ _ => csrrc _ _ _
  | .csrrwi _ _ _ => csrrwi _ _ _ | .csrrsi _ _ _ => csrrsi _ _ _ | .csrrci _ _ _ => csrrci _ _ _
  | .fence _ _ _ _ => fence _ _ _ _ | .fenceI _ _ _ => fenceI _ _ _
  | .addi _ _ _ => addi _ _ _ | .slti _ _ _ => slti _ _ _ | .sltiu _ _ _ => sltiu _ _ _
  | .xori _ _ _ => xori _ _ _ | .ori _ _ _ => ori _ _ _ | .andi _ _ _ => andi _ _ _
  | .slli _ _ _ => slli _ _ _ | .srli _ _ _ => srli _ _ _ | .srai _ _ _ => srai _ _ _
  | .lb _ _ _ => lb _ _ _ | .lh _ _ _ => lh _ _ _ | .lw _ _ _ => lw _ _ _
  | .lbu _ _ _ => lbu _ _ _ | .lhu _ _ _ => lhu _ _ _
  | .sb _ _ _ => sb _ _ _ | .sh _ _ _ => sh _ _ _ | .sw _ _ _ => sw _ _ _
  | .jal _ _ => jal _ _ | .jalr _ _ _ => jalr _ _ _ | .lui _ _ => lui _ _ | .auipc _ _ => auipc _ _
  | .beq _ _ _ => beq _ _ _ | .bne _ _ _ => bne _ _ _ | .blt _ _ _ => blt _ _ _
  | .bge _ _ _ => bge _ _ _ | .bltu _ _ _ => bltu _ _ _ | .bgeu _ _ _ => bgeu _ _ _
  | .add _ _ _ => add _ _ _ | .sub _ _ _ => sub _ _ _ | .sll _ _ _ => sll _ _ _ | .slt _ _ _ => slt _ _ _
  | .sltu _ _ _ => sltu _ _ _ | .xor _ _ _ => xor _ _ _ | .srl _ _ _ => srl _ _ _ | .sra _ _ _ => sra _ _ _
  | .or _ _ _ => or _ _ _ | .and _ _ _ => and _ _ _

/-- An instruction with a destination has it in inst[11:7] and belongs to a group with destinations (R103). -/
theorem destOf_encode {i : Instr} {rd : Reg} (h : destOf i = some rd) :
    InstWord.rd (encode i) = rd ∧ bits (encode i) 6 0 ∈ [0x03, 0x13, 0x17, 0x33, 0x37, 0x67, 0x6F, 0x73] ∧
      (bits (encode i) 6 0 = 0x73 → bits (encode i) 14 12 ∉ [0, 4]) := by
  rw [bits_opcode, bits_funct3, opcode_encode]
  cases i <;> cases h <;> simp [encode, EncodedOpcode.groupOpcode]

/-- A CSR instruction has its CSR in inst[31:20] (R317, R328). -/
theorem csrOf_encode {i : Instr} {a : CsrAddr} (h : csrOf i = some a) :
    bits (encode i) 6 0 = 0x73 ∧ bits (encode i) 14 12 ∉ [0, 4] ∧ a = csrAt (encode i) := by
  rw [bits_opcode, bits_funct3, opcode_encode]
  cases i <;> cases h <;> simp [encode, EncodedOpcode.groupOpcode]

/-- A store has its base and offset in the S format's fields and its size in funct3 (R525). -/
theorem storeOf_encode {i : Instr} {rs1 : Reg} {imm : BitVec 12} {n : Nat} (h : storeOf i = some (rs1, imm, n)) :
    bits (encode i) 6 0 = 0x23 ∧ bits (encode i) 14 12 ≤ 2 ∧ n = 2 ^ bits (encode i) 14 12 ∧
      rs1 = regAt (encode i) 15 ∧ imm = immSAt (encode i) := by
  rw [bits_opcode, bits_funct3, opcode_encode]
  cases i <;> cases h <;> simp [encode, EncodedOpcode.groupOpcode]

/-- An instruction with a target is a jump or a branch. -/
theorem targetOf_encode {s : State} {i : Instr} {n : Word} (h : targetOf s i = some n) :
    bits (encode i) 6 0 ∈ [0x6F, 0x67, 0x63] := by
  rw [bits_opcode, opcode_encode]
  cases i <;> cases h <;> simp [EncodedOpcode.groupOpcode]

/-! ### The frames of a step -/

/-- Settles O43: the register an effect writes is the destination, which is the word's rd field. -/
theorem onlyTheNamedRegisterChanges : Obligations.OnlyTheNamedRegisterChanges := by
  intro s t r h hne
  obtain ⟨-, hsame⟩ | ⟨i, e, -, hfetch, hd, hfit, rfl⟩ := step_halts_or_completes h
  · exact absurd (State.readReg_of_x hsame.x r) hne
  rw [traceInstr_readReg] at hne
  obtain ⟨h0, hwb⟩ := (e.apply_readReg r).resolve_left hne
  have henc := (decode_encodes hd).2
  obtain ⟨hrd, hop, h3⟩ := destOf_encode (hfit.wb.symm.trans hwb)
  rw [henc] at hrd hop h3
  exact ⟨running_of_step_next h, h0, _, hfetch, by rw [regAt_rd, hrd], ⟨i, hd⟩, hop, h3⟩

/-- Settles O44: the CSR an effect writes is the instruction's, which is the word's CSR field. -/
theorem onlyCsrInstructionsChangeCsrs : Obligations.OnlyCsrInstructionsChangeCsrs := by
  intro s t a h hne
  obtain ⟨-, hsame⟩ | ⟨i, e, -, hfetch, hd, hfit, rfl⟩ := step_halts_or_completes h
  · exact absurd (State.readCsr_of_csr hsame.csr a) hne
  rw [traceInstr_readCsr] at hne
  obtain ⟨v, hcsrw⟩ := (e.apply_readCsr a).resolve_left hne
  have hcsr := csrOf_encode (hfit.csrw _ hcsrw)
  rw [(decode_encodes hd).2] at hcsr
  exact ⟨_, hfetch, hcsr⟩

/-- Settles O45: the bytes an effect writes are a store's, whose base, offset and size are the word's fields. -/
theorem onlyStoresChangeMemory : Obligations.OnlyStoresChangeMemory := by
  intro s t a h hne
  obtain ⟨-, hsame⟩ | ⟨i, e, -, hfetch, hd, hfit, rfl⟩ := step_halts_or_completes h
  · exact absurd (State.readByte_of_mem hsame.mem a) hne
  rw [traceInstr_readByte] at hne
  obtain ⟨hbytes, hrange⟩ := (e.apply_readByte a).resolve_left hne
  obtain ⟨rs1, imm, hstore, haddr⟩ := hfit.bytes hbytes
  have hfields := storeOf_encode hstore
  rw [(decode_encodes hd).2] at hfields
  obtain ⟨hop, h3, hlen, hrs1, himm⟩ := hfields
  rw [haddr, hlen, hrs1, himm] at hrange
  exact ⟨_, hfetch, hop, h3, hrange⟩

/-- Settles O46: only a jump or a branch has another target. -/
theorem pcAdvancesByFourExceptAtJumps : Obligations.PcAdvancesByFourExceptAtJumps := by
  intro s t h hrun hne
  obtain ⟨hhalt, -⟩ | ⟨i, e, -, hfetch, hd, hfit, rfl⟩ := step_halts_or_completes h
  · exact absurd hrun hhalt
  rw [traceInstr_pc, Effect.apply_pc] at hne
  have hop := targetOf_encode (hfit.nextPc.resolve_left hne)
  rw [(decode_encodes hd).2] at hop
  exact ⟨_, hfetch, hop⟩

/-! ### The record's writeback field -/

/-- A writeback field names the destination, not x0, and its value after the instruction. -/
theorem writebackOf_eq_some {i : Instr} {t : State} {rd : Reg} {v : Word} (h : writebackOf i t = some (rd, v)) :
    destOf i = some rd ∧ rd ≠ 0 ∧ t.readReg rd = v := by
  unfold writebackOf at h
  split at h
  · next hd =>
    split at h <;> cases h
    exact ⟨hd, ‹_›, rfl⟩
  · cases h

/-- No writeback field means no destination other than x0. -/
theorem writebackOf_eq_none {i : Instr} {t : State} {rd : Reg} (h : writebackOf i t = none) (hd : destOf i = some rd) :
    rd = 0 := by
  by_contra h0
  simp [writebackOf, hd, h0] at h

/-- Settles O56: the one register an effect can change is the destination, which the record's field reports. -/
theorem recordReportsTheWriteback : Obligations.RecordReportsTheWriteback := by
  intro s t h htr hrun
  obtain ⟨hhalt, -⟩ | ⟨i, e, -, hfetch, hd, hfit, rfl⟩ := step_halts_or_completes h
  · exact absurd hrun hhalt
  rw [traceInstr_run] at hrun
  have hout : (traceInstr s (wordAtPc s) i e.apply).traceOut =
      s.traceOut ++ [traceRecord s.pc (wordAtPc s) i e.apply] := by
    rw [traceInstr_traceOut_on (e.apply_trace.trans htr) (by rw [hrun]; rfl), e.apply_traceOut]
  refine ⟨_, _, hout, hfetch, rfl, rfl, fun rd v hwb => ?_, fun hwb r => ?_⟩
  · obtain ⟨hdest, h0, hv⟩ := writebackOf_eq_some hwb
    refine ⟨h0, by rwa [traceInstr_readReg], fun r hr => ?_⟩
    rw [traceInstr_readReg]
    refine (e.apply_readReg r).resolve_right fun ⟨_, hstaged⟩ => hr ?_
    exact Option.some.inj ((hstaged.symm.trans hfit.wb).trans hdest)
  · rw [traceInstr_readReg]
    refine (e.apply_readReg r).resolve_right fun ⟨h0, hstaged⟩ => h0 ?_
    exact writebackOf_eq_none hwb (hfit.wb.symm.trans hstaged)

end Sys2Proof.Machine
end

section
/-! Tracing has no effect on any other state (spec/60_exceptions.md section 6): forgetting the trace flag and the trace
output commutes with every operation, so with every instruction, so with every step, so with every run. -/

-- one theorem at a time: the checker's memory limit does not hold a stack for each of many theorems at once
set_option Elab.async false

namespace Sys2Proof.Machine

open Sys2Proof.Claims

/-- What a step or an instruction answers, with the next state's trace flag and output forgotten. -/
def untracedResult : Result → Result
  | .next t => .next (untraced t)
  | .fault f => .fault f
  | .refused r => .refused r

/-! ### The operations do not see the trace -/

theorem untraced_writeReg (s : State) (r : Reg) (v : Word) : untraced (s.writeReg r v) = (untraced s).writeReg r v := by
  unfold State.writeReg; split <;> rfl

theorem untraced_writeBytes (s : State) (a : Nat) (bs : List Byte) :
    untraced (s.writeBytes a bs) = (untraced s).writeBytes a bs := by
  induction bs generalizing s a with
  | nil => rfl
  | cons b rest ih => exact ih (s.writeByte a b) (a + 1)

theorem untraced_commit (s : State) (wb : Option (Reg × Word)) (csrw : Option (CsrAddr × Word)) (n : Word) :
    untraced (s.commit wb csrw n) = (untraced s).commit wb csrw n := by
  cases wb with
  | none => cases csrw <;> rfl
  | some p =>
    simp only [State.commit, ← untraced_writeReg]
    cases csrw <;> rfl

theorem untraced_emit (s : State) (r : TraceRecord) : untraced (s.emit r) = untraced s := by
  unfold State.emit; split <;> rfl

theorem untraced_traceInstr (s : State) (word : Word) (i : Instr) (t : State) :
    untraced (traceInstr s word i t) = untraced t := by
  unfold traceInstr
  split
  · exact untraced_emit _ _
  · rfl

theorem untraced_finishLoad (s : State) (rd : Reg) (m : Except HaltReason Word) :
    untracedResult (s.finishLoad rd m) = (untraced s).finishLoad rd m := by
  cases m with
  | ok v => exact congrArg _ (untraced_commit _ _ _ _)
  | error r => rfl

theorem untraced_checkedStore (s : State) (ea v : Word) (n : Nat) :
    untracedResult (s.checkedStore ea v n) = (untraced s).checkedStore ea v n := by
  unfold State.checkedStore
  rw [← untraced_writeBytes]
  change _ = State.finishStore _ ((checkAccess s.capacity ea n).map _)
  cases checkAccess s.capacity ea n with
  | ok => exact congrArg _ (untraced_commit _ _ _ _)
  | error r => rfl

/-! ### Instructions, steps and runs do not see the trace -/

theorem exec_untraced (i : Instr) (s : State) : untracedResult (exec i s) = exec i (untraced s) := by
  cases i
  case ecall | ebreak => rfl
  case lb | lh | lw | lbu | lhu => exact untraced_finishLoad _ _ _
  case sb rs2 imm rs1 => exact untraced_checkedStore s _ _ 1
  case sh rs2 imm rs1 => exact untraced_checkedStore s _ _ 2
  case sw rs2 imm rs1 => exact untraced_checkedStore s _ _ 4
  all_goals exact congrArg _ (untraced_commit _ _ _ _)

theorem untraced_afterInstr (s : State) (word : Word) (i : Instr) (r : Result) :
    untracedResult (s.afterInstr word i r) = untracedResult r := by
  cases r with
  | next t => exact congrArg Host.Outcome.next (untraced_traceInstr _ _ _ _)
  | fault f => rfl
  | refused r => rfl

theorem step_untraced (s : State) : untracedResult (step s) = untracedResult (step (untraced s)) := by
  have hrun : (untraced s).run = s.run := rfl
  have hfetch : (untraced s).fetch = s.fetch := rfl
  unfold step
  rw [hrun, hfetch]
  cases s.run with
  | unstarted => rfl
  | halted r => rfl
  | running =>
    cases s.fetch with
    | error r => rfl
    | ok word =>
      cases hd : decode word with
      | error e =>
        simp only [hd]
        exact congrArg (fun u : State => Host.Outcome.next (u.halt _)) (untraced_emit s _)
      | ok i =>
        simp only [hd]
        rw [untraced_afterInstr, untraced_afterInstr, exec_untraced, exec_untraced]
        rfl

/-- Two outcomes of the same kind that differ at most in the trace. -/
inductive AgreeUntraced : Result → Result → Prop where
  | next {s t : State} (h : untraced s = untraced t) : AgreeUntraced (.next s) (.next t)
  | fault (f : Fault) : AgreeUntraced (.fault f) (.fault f)
  | refused (r : Refusal) : AgreeUntraced (.refused r) (.refused r)

theorem agreeUntraced_of_eq {a b : Result} (h : untracedResult a = untracedResult b) : AgreeUntraced a b := by
  cases a <;> cases b
  case next.next => exact .next (Host.Outcome.next.inj h)
  case fault.fault f g => cases h; exact .fault f
  case refused.refused f g => cases h; exact .refused f
  all_goals cases h

theorem step_agreeUntraced {s t : State} (h : untraced s = untraced t) : AgreeUntraced (step s) (step t) :=
  agreeUntraced_of_eq (by rw [step_untraced s, h, ← step_untraced t])

/-! ### Runs, one step at a time -/

section Runs
variable {M : Host.Core} {s : M.State} (n : Nat)

theorem run_succ_next {s' : M.State} (h : M.step s = .next s') : M.run (n + 1) s = M.run n s' := by
  rw [Host.Core.run, h]

theorem run_succ_fault {f : M.Fault} (h : M.step s = .fault f) : M.run (n + 1) s = .fault f := by
  rw [Host.Core.run, h]

theorem run_succ_refused {r : M.Refusal} (h : M.step s = .refused r) : M.run (n + 1) s = .refused r := by
  rw [Host.Core.run, h]

end Runs

/-- Runs of the same length from states that differ at most in the trace end alike: each step does. -/
theorem run_agreeUntraced (n : Nat) {s t : State} (h : untraced s = untraced t) :
    AgreeUntraced (Host.Core.run core n s) (Host.Core.run core n t) := by
  induction n generalizing s t with
  | zero => exact .next h
  | succ n ih =>
    have hstep := step_agreeUntraced h
    generalize hs : step s = a at hstep
    generalize ht : step t = b at hstep
    cases hstep with
    | next h' => rw [run_succ_next (M := core) n hs, run_succ_next (M := core) n ht]; exact ih h'
    | fault f => rw [run_succ_fault (M := core) n hs, run_succ_fault (M := core) n ht]; exact .fault f
    | refused r => rw [run_succ_refused (M := core) n hs, run_succ_refused (M := core) n ht]; exact .refused r

/-- Settles O57: the two runs agree, step by step. -/
theorem tracingChangesNothingElse : Obligations.TracingChangesNothingElse := by
  intro n s t h
  have hrun := run_agreeUntraced n h
  generalize Host.Core.run core n s = a at hrun ⊢
  generalize Host.Core.run core n t = b at hrun ⊢
  cases hrun with
  | next h' => exact h'
  | fault f => rfl
  | refused r => rfl

end Sys2Proof.Machine
end

section
/-! Proofs about memory, the host operations and the launch (spec/10_state.md section 7, spec/20_memory.md,
spec/70_reset_and_hazards.md). -/

-- one theorem at a time: the checker's memory limit does not hold a stack for each of many theorems at once
set_option Elab.async false

namespace Sys2Proof.Machine

open Sys2Proof.Claims

/-! ### The memory port's reads -/

/-- A checked read fails with the check's reason, or gives the value. -/
theorem map_toNat_checkedRead {k : Nat} (capacity : Nat) (addr : Word) (size : Nat) (v : BitVec k) :
    ((checkAccess capacity addr size).map fun _ => v).map BitVec.toNat =
      if addr.toNat % size ≠ 0 then .error (.misaligned addr size)
      else if addr.toNat + size > capacity then .error (.outOfRange addr size capacity) else .ok v.toNat := by
  unfold checkAccess
  split
  · rfl
  split <;> rfl

/-- Settles O47: each read is checked, and gives its bytes' little-endian number; a one-byte access is always aligned. -/
theorem memoryReadContract : Obligations.MemoryReadContract := by
  intro s addr
  rw [leNat_one, leNat_two, leNat_four]
  refine ⟨?_, map_toNat_checkedRead _ _ _ _, map_toNat_checkedRead _ _ _ _⟩
  exact (map_toNat_checkedRead _ _ _ _).trans (if_neg (not_not.mpr (Nat.mod_one _)))

/-! ### Canonical states -/

/-- Every CSR reads the same, so every key of the file does: no key past the last address is listed. -/
theorem csr_read_eq {l m : CsrFile} (hl : CsrFile.wf l = true) (hm : CsrFile.wf m = true)
    (h : ∀ a : CsrAddr, Store.read 0 l a.toNat = Store.read 0 m a.toNat) (k : Nat) :
    Store.read 0 l k = Store.read 0 m k := by
  by_cases hk : k < 4096
  · simpa [Nat.mod_eq_of_lt hk] using h (BitVec.ofNat 12 k)
  · rw [Store.read_above l 0 k hl (by omega), Store.read_above m 0 k hm (by omega)]

/-- Settles O48: canonical lists with the same contents are the same list. -/
theorem canonicalStatesWithEqualContentsAreEqual : Obligations.CanonicalStatesWithEqualContentsAreEqual := by
  intro s t ⟨_, _, hms, hcs⟩ ⟨_, _, hmt, hct⟩ hcap
  rw [← hcap] at hmt
  exact ⟨fun h => Store.ext_of_wfFrom t.mem s.mem 0 hmt hms h,
    fun h => Store.ext_of_wfFrom t.csr s.csr 0 hct hcs (csr_read_eq hct hcs h)⟩

/-! ### loadBytes -/

/-- A call that runs past the capacity is refused (R285). -/
theorem State.loadBytes_refused {s : State} {bytes : List Byte} {base : Word}
    (h : s.capacity < base.toNat + bytes.length) :
    s.loadBytes bytes base = .error (.outOfRange base bytes.length s.capacity) := if_pos h

/-- A call within the capacity writes the bytes. -/
theorem State.loadBytes_ok {s : State} {bytes : List Byte} {base : Word}
    (h : base.toNat + bytes.length ≤ s.capacity) : s.loadBytes bytes base = .ok (s.writeBytes base.toNat bytes) :=
  if_neg (Nat.not_lt.mpr h)

/-- A call that answers a state has written the bytes within the capacity. -/
theorem State.loadBytes_cases {s t : State} {bytes : List Byte} {base : Word} (h : s.loadBytes bytes base = .ok t) :
    base.toNat + bytes.length ≤ s.capacity ∧ t = s.writeBytes base.toNat bytes := by
  by_cases hin : base.toNat + bytes.length ≤ s.capacity
  · rw [State.loadBytes_ok hin] at h
    exact ⟨hin, (Except.ok.inj h).symm⟩
  · rw [State.loadBytes_refused (Nat.lt_of_not_le hin)] at h
    cases h

/-- Settles O51: the call is a bounds check and a write of the bytes. -/
theorem loadBytesContract : Obligations.LoadBytesContract := by
  intro s bytes base hwf
  refine ⟨State.loadBytes_refused, fun hin => ⟨_, State.loadBytes_ok hin, fun k b hk => ?_, fun a ha => ?_,
    State.readReg_of_x (s.writeBytes_x _ _), State.readCsr_of_csr (s.writeBytes_csr _ _), by simp [SameRest], by simp⟩⟩
  · obtain ⟨hlt, rfl⟩ := List.getElem?_eq_some_iff.mp hk
    exact s.readByte_writeBytes_in _ k bytes hwf hin hlt
  · exact s.readByte_writeBytes_out _ _ _ ha

/-! ### The invariant after launch and after the host's operations -/

theorem State.hostReset_inv {s : State} (h : s.Inv) (p : Word) : (s.hostReset p).Inv := by
  obtain ⟨-, hcap, hmem, -⟩ := h
  exact ⟨by simp, hcap, hmem, rfl⟩

theorem State.loadBytes_inv {s t : State} {bytes : List Byte} {base : Word} (h : s.Inv)
    (ht : s.loadBytes bytes base = .ok t) : t.Inv := by
  obtain ⟨hx, hcap, hmem, hcsr⟩ := h
  have hwf := State.loadBytes_wf hmem ht
  obtain ⟨-, rfl⟩ := State.loadBytes_cases ht
  exact ⟨by simpa using hx, by simpa using hcap, hwf, by simpa using hcsr⟩

/-- Settles O39: reset empties the CSR file, setTrace moves no field of the invariant, loadBytes writes within bounds. -/
theorem hostOperationsKeepInv : Obligations.HostOperationsKeepInv := fun _ h =>
  ⟨State.hostReset_inv h, fun _ => h, fun _ _ _ => State.loadBytes_inv h⟩

theorem State.launch_inv {p : Launch} (hcap : p.memCapacity ≤ maxCapacity)
    (hmem : Memory.wf p.memCapacity p.initMem = true) : (State.launch p).Inv :=
  ⟨by simp [State.launch], hcap, hmem, rfl⟩

theorem State.launch_readReg (p : Launch) (r : Reg) : (State.launch p).readReg r = 0 := by
  simp [State.readReg, State.launch]

/-- Settles O38: the default launch is a legal one. -/
theorem launchMeetsInv : Obligations.LaunchMeetsInv :=
  ⟨fun p hcap hmem => ⟨State.launch_inv hcap hmem, State.launch_readReg p, fun _ => rfl⟩,
    State.launch_inv (Nat.le_refl _) State.reset_memory_wf⟩

/-- Settles O50: reset moves none of the three fields. -/
theorem resetKeepsMemoryAndTraceFlag : Obligations.ResetKeepsMemoryAndTraceFlag := fun s p =>
  ⟨State.readByte_of_mem (s.hostReset_mem p), s.hostReset_capacity p, s.hostReset_trace p⟩

/-! ### Run states -/

/-- Step on a halted core is refused (decision D10). -/
theorem step_of_halted {s : State} {r : HaltReason} (h : s.run = .halted r) :
    step s = .refused (.stepWhileHalted r) := by
  simp [step, h]

/-- Step on an unstarted core is stuck (decision D22). -/
theorem step_of_unstarted {s : State} (h : s.run = .unstarted) : step s = .fault .stuckUnstarted := by
  simp [step, h]

/-- Settles O34: step looks at the run state first, and no host operation but reset moves it. -/
theorem runStateTransitions : Obligations.RunStateTransitions := by
  refine ⟨fun _ _ => running_of_step_next, fun _ _ => step_of_halted, State.setTrace_run, fun s t bytes base h => ?_,
    State.hostReset_run⟩
  obtain ⟨-, rfl⟩ := State.loadBytes_cases h
  exact s.writeBytes_run _ _

/-- Settles O35: step in Unstarted is the fault. -/
theorem unstartedCoreIsStuck : Obligations.UnstartedCoreIsStuck := fun s h =>
  ⟨step_of_unstarted h, fun p => ⟨s.hostReset_run p, s.hostReset_pc p⟩⟩

/-! ### withFetchWord -/

theorem tableWord_toNat (w : Word) : tableWord 32 w.toNat = w := by
  rw [tableWord, Nat.mod_eq_of_lt w.isLt, BitVec.ofNat_toNat, BitVec.setWidth_eq]

theorem alignedPc_aligned (pc : Word) : (alignedPc pc).toNat % 4 = 0 := by
  rw [alignedPc_toNat, Nat.mul_mod_left]

theorem alignedPc_of_aligned {pc : Word} (h : pc.toNat % 4 = 0) : alignedPc pc = pc := by
  apply BitVec.eq_of_toNat_eq
  rw [alignedPc_toNat]
  omega

/-- The core made ready for a word at its aligned pc: Running, the capacity reaching past the word. -/
def State.readyForWord (s : State) : State :=
  { s with run := .running, pc := alignedPc s.pc, capacity := max s.capacity ((alignedPc s.pc).toNat + 4) }

theorem State.placeWord_eq (s : State) (w : Word) :
    s.placeWord w = s.readyForWord.writeBytes (alignedPc s.pc).toNat (bytesOfWord w) := rfl

/-- The placed word lies at the aligned pc, within the capacity, so the fetch reads it back. -/
theorem State.fetch_placeWord {s : State} (w : Word) (hwf : Memory.wf s.capacity s.mem = true) :
    (s.placeWord w).fetch = .ok w := by
  have hready : Memory.wf s.readyForWord.capacity s.readyForWord.mem = true := Memory.wf_mono hwf (Nat.le_max_left _ _)
  rw [State.fetch, State.placeWord_eq, State.writeBytes_pc]
  exact State.memRead32_writeBytes_bytesOfWord w hready (alignedPc_aligned s.pc) (Nat.le_max_right _ _)

/-- Settles O52: an aligned pc and a capacity that reaches past it stay as they are. -/
theorem placedWordIsFetched : Obligations.PlacedWordIsFetched := by
  intro s w hwf
  rw [State.withFetchWord, tableWord_toNat]
  refine ⟨State.fetch_placeWord w hwf, State.writeBytes_run _ _ _, fun ⟨hal, hin⟩ => ?_⟩
  have hpc := alignedPc_of_aligned hal
  rw [State.placeWord_eq, State.writeBytes_pc, State.writeBytes_capacity, State.readyForWord, hpc]
  exact ⟨rfl, Nat.max_eq_left hin⟩

end Sys2Proof.Machine
end
